-- ==== Sys2Proof/Word.lean ====
section
/-! DEFINITION. The word types of the rip8 CORE (spec/00_scope.md R8, R10): every value is an unsigned number of a
fixed width; no instruction treats a value as signed. -/

namespace Sys2Proof

/-- Four bits, half a byte (R15 "Nibble"). -/
abbrev Nibble := BitVec 4

/-- One byte: the width of a general register, a memory cell, a timer counter and an Immediate (R8). -/
abbrev Byte := BitVec 8

/-- A 12-bit Address, always ≤ 0xFFF: a decoded `nnn`, the register I, a call stack entry (R8, R19, R22). -/
abbrev Addr := BitVec 12

/-- Sixteen bits: the instruction word, the program counter and the address of an error record (R8, R20, R90). -/
abbrev Word := BitVec 16

/-- The number of a general register V0..VF (R17). -/
abbrev RegId := BitVec 4

end Sys2Proof
end

