-- ==== Sys2Proof/Syntax.lean ====
section
/-! DEFINITION. The instruction set: exactly the 35 Operations of spec/30_encoding.md R50, one constructor per row of
spec/opcode_table.json, in the table's order. The operands are those of R42, each of its own width, so that no
instruction can hold an out-of-range field ("already-decoded, range-checked"). -/

namespace Sys2Proof

/-- One decoded instruction ("Operation", R16). -/
inductive Instr where
  /-- SYS, word 0nnn: the legacy system call (R52). -/
  | sys (nnn : Addr)
  /-- CLS, word 00E0: clear the display (R85). -/
  | cls
  /-- RET, word 00EE: return from subroutine (R55). -/
  | ret
  /-- JP, word 1nnn (R53). -/
  | jp (nnn : Addr)
  /-- CALL, word 2nnn (R54). -/
  | call (nnn : Addr)
  /-- SE_VX_KK, word 3xkk (R58). -/
  | seVxKk (x : RegId) (kk : Byte)
  /-- SNE_VX_KK, word 4xkk (R59). -/
  | sneVxKk (x : RegId) (kk : Byte)
  /-- SE_VX_VY, word 5xy0 (R60). -/
  | seVxVy (x y : RegId)
  /-- LD_VX_KK, word 6xkk (R62). -/
  | ldVxKk (x : RegId) (kk : Byte)
  /-- ADD_VX_KK, word 7xkk (R63). -/
  | addVxKk (x : RegId) (kk : Byte)
  /-- LD_VX_VY, word 8xy0 (R65). -/
  | ldVxVy (x y : RegId)
  /-- OR, word 8xy1 (R66). -/
  | orVxVy (x y : RegId)
  /-- AND, word 8xy2 (R67). -/
  | andVxVy (x y : RegId)
  /-- XOR, word 8xy3 (R68). -/
  | xorVxVy (x y : RegId)
  /-- ADD_VX_VY, word 8xy4 (R69). -/
  | addVxVy (x y : RegId)
  /-- SUB, word 8xy5 (R70). -/
  | sub (x y : RegId)
  /-- SHR, word 8xy6 (R71). -/
  | shr (x y : RegId)
  /-- SUBN, word 8xy7 (R72). -/
  | subn (x y : RegId)
  /-- SHL, word 8xyE (R73). -/
  | shl (x y : RegId)
  /-- SNE_VX_VY, word 9xy0 (R61). -/
  | sneVxVy (x y : RegId)
  /-- LD_I_NNN, word Annn (R74). -/
  | ldINnn (nnn : Addr)
  /-- JP_V0, word Bnnn (R56). -/
  | jpV0 (nnn : Addr)
  /-- RND, word Cxkk (R84). -/
  | rnd (x : RegId) (kk : Byte)
  /-- DRW, word Dxyn (R86). -/
  | drw (x y : RegId) (n : Nibble)
  /-- SKP, word Ex9E (R80). -/
  | skp (x : RegId)
  /-- SKNP, word ExA1 (R81). -/
  | sknp (x : RegId)
  /-- LD_VX_DT, word Fx07 (R77). -/
  | ldVxDt (x : RegId)
  /-- LD_VX_K, word Fx0A: wait for a key (R82, R83). -/
  | ldVxK (x : RegId)
  /-- LD_DT_VX, word Fx15 (R78). -/
  | ldDtVx (x : RegId)
  /-- LD_ST_VX, word Fx18 (R79). -/
  | ldStVx (x : RegId)
  /-- ADD_I_VX, word Fx1E (R75). -/
  | addIVx (x : RegId)
  /-- LD_F_VX, word Fx29 (R76). -/
  | ldFVx (x : RegId)
  /-- LD_B_VX, word Fx33 (R87). -/
  | ldBVx (x : RegId)
  /-- LD_I_VX, word Fx55: store V0..Vx (R88). -/
  | ldIVx (x : RegId)
  /-- LD_VX_I, word Fx65: load V0..Vx (R89). -/
  | ldVxI (x : RegId)
  deriving DecidableEq, Repr

end Sys2Proof
end

