-- ==== Sys2Proof/Decode.lean ====
section
/-! DEFINITION. The decoder of spec/30_encoding.md R40 to R44, total on any bytes, and after it the encoder written from
the same formats (R41, R43). -/

namespace Sys2Proof

/-! ## Nibbles and operand assembly (R40, R42) -/

/-- Bits 7:4 of a byte. -/
def hiNibble (b : Byte) : Nibble := b.extractLsb' 4 4

/-- Bits 3:0 of a byte. -/
def loNibble (b : Byte) : Nibble := b.extractLsb' 0 4

/-- `p :: q` on nibbles: the first in the high bits (R10); `kk = c :: d`. -/
def packByte (p q : Nibble) : Byte := p ++ q

/-- `nnn = b :: c :: d`. -/
def packAddr (b c d : Nibble) : Addr := b ++ c ++ d

/-- The nibble of an Address at bits 11:8. -/
def addrHi (a : Addr) : Nibble := a.extractLsb' 8 4

/-- The nibble of an Address at bits 7:4. -/
def addrMid (a : Addr) : Nibble := a.extractLsb' 4 4

/-- The nibble of an Address at bits 3:0. -/
def addrLo (a : Addr) : Nibble := a.extractLsb' 0 4

/-! ## The decoder -/

/-- The four nibbles a, b, c, d of an instruction's word. -/
structure Nibbles where
  /-- Bits 15:12, the family. -/
  a : Nibble
  /-- Bits 11:8. -/
  b : Nibble
  /-- Bits 7:4. -/
  c : Nibble
  /-- Bits 3:0. -/
  d : Nibble
  deriving DecidableEq, Repr

/-- Why bytes decode to no instruction. -/
inductive DecodeFailure where
  /-- "if no sub-code matches within a family that requires one, decoding fails": the raw nibbles of the word (R43,
  R44). -/
  | noSubcode (word : Nibbles)
  /-- Fewer than the two bytes of an instruction word were given (R40). No step meets it: a fetch gives two bytes. -/
  | truncated
  deriving DecidableEq, Repr

/-- Family 0x0: two exact words, "otherwise" SYS; no word of it is illegal (R43, C1). -/
def decodeFamily0 (b c d : Nibble) : Instr :=
  if b = 0x0#4 ∧ c = 0xE#4 ∧ d = 0x0#4 then .cls
  else if b = 0x0#4 ∧ c = 0xE#4 ∧ d = 0xE#4 then .ret
  else .sys (packAddr b c d)

/-- Family 0x8: the sub-code is d (R43, R44). -/
def decodeFamily8 (x y d : Nibble) : Except Nibbles Instr :=
  if d = 0x0#4 then .ok (.ldVxVy x y)
  else if d = 0x1#4 then .ok (.orVxVy x y)
  else if d = 0x2#4 then .ok (.andVxVy x y)
  else if d = 0x3#4 then .ok (.xorVxVy x y)
  else if d = 0x4#4 then .ok (.addVxVy x y)
  else if d = 0x5#4 then .ok (.sub x y)
  else if d = 0x6#4 then .ok (.shr x y)
  else if d = 0x7#4 then .ok (.subn x y)
  else if d = 0xE#4 then .ok (.shl x y)
  else .error ⟨0x8#4, x, y, d⟩

/-- Family 0xE: the sub-code is the low byte (R43, R44). -/
def decodeFamilyE (x c d : Nibble) : Except Nibbles Instr :=
  if c = 0x9#4 ∧ d = 0xE#4 then .ok (.skp x)
  else if c = 0xA#4 ∧ d = 0x1#4 then .ok (.sknp x)
  else .error ⟨0xE#4, x, c, d⟩

/-- Family 0xF: the sub-code is the low byte (R43, R44). -/
def decodeFamilyF (x c d : Nibble) : Except Nibbles Instr :=
  if c = 0x0#4 ∧ d = 0x7#4 then .ok (.ldVxDt x)
  else if c = 0x0#4 ∧ d = 0xA#4 then .ok (.ldVxK x)
  else if c = 0x1#4 ∧ d = 0x5#4 then .ok (.ldDtVx x)
  else if c = 0x1#4 ∧ d = 0x8#4 then .ok (.ldStVx x)
  else if c = 0x1#4 ∧ d = 0xE#4 then .ok (.addIVx x)
  else if c = 0x2#4 ∧ d = 0x9#4 then .ok (.ldFVx x)
  else if c = 0x3#4 ∧ d = 0x3#4 then .ok (.ldBVx x)
  else if c = 0x5#4 ∧ d = 0x5#4 then .ok (.ldIVx x)
  else if c = 0x6#4 ∧ d = 0x5#4 then .ok (.ldVxI x)
  else .error ⟨0xF#4, x, c, d⟩

/-- R43's dispatch on nibble a, "the opcode family"; the last family is 0xF. -/
def decodeNibbles (a b c d : Nibble) : Except Nibbles Instr :=
  if a = 0x0#4 then .ok (decodeFamily0 b c d)
  else if a = 0x1#4 then .ok (.jp (packAddr b c d))
  else if a = 0x2#4 then .ok (.call (packAddr b c d))
  else if a = 0x3#4 then .ok (.seVxKk b (packByte c d))
  else if a = 0x4#4 then .ok (.sneVxKk b (packByte c d))
  else if a = 0x5#4 then (if d = 0x0#4 then .ok (.seVxVy b c) else .error ⟨a, b, c, d⟩)
  else if a = 0x6#4 then .ok (.ldVxKk b (packByte c d))
  else if a = 0x7#4 then .ok (.addVxKk b (packByte c d))
  else if a = 0x8#4 then decodeFamily8 b c d
  else if a = 0x9#4 then (if d = 0x0#4 then .ok (.sneVxVy b c) else .error ⟨a, b, c, d⟩)
  else if a = 0xA#4 then .ok (.ldINnn (packAddr b c d))
  else if a = 0xB#4 then .ok (.jpV0 (packAddr b c d))
  else if a = 0xC#4 then .ok (.rnd b (packByte c d))
  else if a = 0xD#4 then .ok (.drw b c d)
  else if a = 0xE#4 then decodeFamilyE b c d
  else decodeFamilyF b c d

/-- `decode(hi, lo)` of R43: `hi` is the byte at the lower address (R32, R34). A failure carries the raw nibbles; the fetch
stage adds the pc (D33). -/
def decode (hi lo : Byte) : Except Nibbles Instr :=
  decodeNibbles (hiNibble hi) (loNibble hi) (hiNibble lo) (loNibble lo)

/-- The decoder on a 16-bit word `hi :: lo` (R40). -/
def decodeWord (w : Word) : Except Nibbles Instr := decode (w.extractLsb' 8 8) (w.extractLsb' 0 8)

/-- The decoder on any bytes: "a decoder always consumes exactly two bytes" (R40). -/
def decodeBytes : List Byte → Except DecodeFailure (Instr × List Byte)
  | hi :: lo :: rest =>
    match decode hi lo with
    | .ok i => .ok (i, rest)
    | .error word => .error (.noSubcode word)
  | [_] => .error .truncated
  | [] => .error .truncated

/-- The two bytes of a 16-bit word, high byte first (R34). -/
def wordBytes (w : Word) : List Byte := [w.extractLsb' 8 8, w.extractLsb' 0 8]

/-- The instruction of an opcode-table word: the low `nbits` bits of `w`, laid out big-endian and decoded. -/
def decodeTableWord (nbits w : Nat) : Option Instr :=
  match decodeBytes (wordBytes (BitVec.ofNat 16 (w % 2 ^ nbits))) with
  | .ok (i, _) => some i
  | .error _ => none

/-! ## The encoder (R41, R43, R48) -/

/-- Format A (R41): a family and an Address. -/
def formatA (a : Nibble) (nnn : Addr) : Nibbles := ⟨a, addrHi nnn, addrMid nnn, addrLo nnn⟩

/-- Format XK (R41): a family, a register and an Immediate. -/
def formatXK (a : Nibble) (x : RegId) (kk : Byte) : Nibbles := ⟨a, x, hiNibble kk, loNibble kk⟩

/-- The nibbles of `i`'s word (R41, R43). -/
def encodeNibbles (i : Instr) : Nibbles :=
  match i with
  | .sys nnn => formatA 0x0#4 nnn
  | .cls => ⟨0x0#4, 0x0#4, 0xE#4, 0x0#4⟩
  | .ret => ⟨0x0#4, 0x0#4, 0xE#4, 0xE#4⟩
  | .jp nnn => formatA 0x1#4 nnn
  | .call nnn => formatA 0x2#4 nnn
  | .seVxKk x kk => formatXK 0x3#4 x kk
  | .sneVxKk x kk => formatXK 0x4#4 x kk
  | .seVxVy x y => ⟨0x5#4, x, y, 0x0#4⟩
  | .ldVxKk x kk => formatXK 0x6#4 x kk
  | .addVxKk x kk => formatXK 0x7#4 x kk
  | .ldVxVy x y => ⟨0x8#4, x, y, 0x0#4⟩
  | .orVxVy x y => ⟨0x8#4, x, y, 0x1#4⟩
  | .andVxVy x y => ⟨0x8#4, x, y, 0x2#4⟩
  | .xorVxVy x y => ⟨0x8#4, x, y, 0x3#4⟩
  | .addVxVy x y => ⟨0x8#4, x, y, 0x4#4⟩
  | .sub x y => ⟨0x8#4, x, y, 0x5#4⟩
  | .shr x y => ⟨0x8#4, x, y, 0x6#4⟩
  | .subn x y => ⟨0x8#4, x, y, 0x7#4⟩
  | .shl x y => ⟨0x8#4, x, y, 0xE#4⟩
  | .sneVxVy x y => ⟨0x9#4, x, y, 0x0#4⟩
  | .ldINnn nnn => formatA 0xA#4 nnn
  | .jpV0 nnn => formatA 0xB#4 nnn
  | .rnd x kk => formatXK 0xC#4 x kk
  | .drw x y n => ⟨0xD#4, x, y, n⟩
  | .skp x => ⟨0xE#4, x, 0x9#4, 0xE#4⟩
  | .sknp x => ⟨0xE#4, x, 0xA#4, 0x1#4⟩
  | .ldVxDt x => ⟨0xF#4, x, 0x0#4, 0x7#4⟩
  | .ldVxK x => ⟨0xF#4, x, 0x0#4, 0xA#4⟩
  | .ldDtVx x => ⟨0xF#4, x, 0x1#4, 0x5#4⟩
  | .ldStVx x => ⟨0xF#4, x, 0x1#4, 0x8#4⟩
  | .addIVx x => ⟨0xF#4, x, 0x1#4, 0xE#4⟩
  | .ldFVx x => ⟨0xF#4, x, 0x2#4, 0x9#4⟩
  | .ldBVx x => ⟨0xF#4, x, 0x3#4, 0x3#4⟩
  | .ldIVx x => ⟨0xF#4, x, 0x5#4, 0x5#4⟩
  | .ldVxI x => ⟨0xF#4, x, 0x6#4, 0x5#4⟩

/-- The two bytes of `i`'s word, in address order (R34). -/
def encode (i : Instr) : Byte × Byte :=
  (packByte (encodeNibbles i).a (encodeNibbles i).b, packByte (encodeNibbles i).c (encodeNibbles i).d)

/-- `i`'s 16-bit word, `hi :: lo` (R40). -/
def encodeWord (i : Instr) : Word := (encode i).1 ++ (encode i).2

/-! ## The opcode table's rows -/

/-- A row of spec/opcode_table.json: the word `w` belongs to it when `w &&& mask = bits` (SYS without the words of the
more specific rows CLS and RET). -/
structure TableRow where
  /-- The row's mnemonic. -/
  mnemonic : String
  /-- The row's "match". -/
  bits : Word
  /-- The row's "mask". -/
  mask : Word
  deriving DecidableEq, Repr

/-- The row of an instruction. -/
def tableRow (i : Instr) : TableRow :=
  match i with
  | .sys _ => ⟨"SYS", 0x0000#16, 0xF000#16⟩
  | .cls => ⟨"CLS", 0x00E0#16, 0xFFFF#16⟩
  | .ret => ⟨"RET", 0x00EE#16, 0xFFFF#16⟩
  | .jp _ => ⟨"JP", 0x1000#16, 0xF000#16⟩
  | .call _ => ⟨"CALL", 0x2000#16, 0xF000#16⟩
  | .seVxKk _ _ => ⟨"SE_VX_KK", 0x3000#16, 0xF000#16⟩
  | .sneVxKk _ _ => ⟨"SNE_VX_KK", 0x4000#16, 0xF000#16⟩
  | .seVxVy _ _ => ⟨"SE_VX_VY", 0x5000#16, 0xF00F#16⟩
  | .ldVxKk _ _ => ⟨"LD_VX_KK", 0x6000#16, 0xF000#16⟩
  | .addVxKk _ _ => ⟨"ADD_VX_KK", 0x7000#16, 0xF000#16⟩
  | .ldVxVy _ _ => ⟨"LD_VX_VY", 0x8000#16, 0xF00F#16⟩
  | .orVxVy _ _ => ⟨"OR", 0x8001#16, 0xF00F#16⟩
  | .andVxVy _ _ => ⟨"AND", 0x8002#16, 0xF00F#16⟩
  | .xorVxVy _ _ => ⟨"XOR", 0x8003#16, 0xF00F#16⟩
  | .addVxVy _ _ => ⟨"ADD_VX_VY", 0x8004#16, 0xF00F#16⟩
  | .sub _ _ => ⟨"SUB", 0x8005#16, 0xF00F#16⟩
  | .shr _ _ => ⟨"SHR", 0x8006#16, 0xF00F#16⟩
  | .subn _ _ => ⟨"SUBN", 0x8007#16, 0xF00F#16⟩
  | .shl _ _ => ⟨"SHL", 0x800E#16, 0xF00F#16⟩
  | .sneVxVy _ _ => ⟨"SNE_VX_VY", 0x9000#16, 0xF00F#16⟩
  | .ldINnn _ => ⟨"LD_I_NNN", 0xA000#16, 0xF000#16⟩
  | .jpV0 _ => ⟨"JP_V0", 0xB000#16, 0xF000#16⟩
  | .rnd _ _ => ⟨"RND", 0xC000#16, 0xF000#16⟩
  | .drw _ _ _ => ⟨"DRW", 0xD000#16, 0xF000#16⟩
  | .skp _ => ⟨"SKP", 0xE09E#16, 0xF0FF#16⟩
  | .sknp _ => ⟨"SKNP", 0xE0A1#16, 0xF0FF#16⟩
  | .ldVxDt _ => ⟨"LD_VX_DT", 0xF007#16, 0xF0FF#16⟩
  | .ldVxK _ => ⟨"LD_VX_K", 0xF00A#16, 0xF0FF#16⟩
  | .ldDtVx _ => ⟨"LD_DT_VX", 0xF015#16, 0xF0FF#16⟩
  | .ldStVx _ => ⟨"LD_ST_VX", 0xF018#16, 0xF0FF#16⟩
  | .addIVx _ => ⟨"ADD_I_VX", 0xF01E#16, 0xF0FF#16⟩
  | .ldFVx _ => ⟨"LD_F_VX", 0xF029#16, 0xF0FF#16⟩
  | .ldBVx _ => ⟨"LD_B_VX", 0xF033#16, 0xF0FF#16⟩
  | .ldIVx _ => ⟨"LD_I_VX", 0xF055#16, 0xF0FF#16⟩
  | .ldVxI _ => ⟨"LD_VX_I", 0xF065#16, 0xF0FF#16⟩

end Sys2Proof
end

