-- ==== Sys2Proof/Config.lean ====
section
/-! DEFINITION. What is fixed for one machine: the open parameters of spec/00_scope.md R9, as plain data (a machine
carries its `Config` in its state and no step changes it: log entries 1 and 2); and the free values, the collaborators'
answers of R13, as constants with no body (log entry 3). -/

namespace Sys2Proof

/-- What executing SYS does: the parameter `sysPolicy` of R9 and R52 (decision D8). -/
inductive SysPolicy where
  /-- SYS raises UnsupportedSys and halts the core. -/
  | fault
  /-- SYS only advances the pc. -/
  | nop
  deriving DecidableEq, Repr

/-- The open parameters of R9, "which a model takes as arguments". -/
structure Config where
  /-- The number of return addresses the call stack holds, at least 1 (R21, R22; D4, OPEN). -/
  stackDepth : Nat
  /-- The address of the first glyph byte, with `fontBase + 80 ≤ 0x200` (R33, R76; D6, OPEN). -/
  fontBase : Addr
  /-- The sixteen five-byte digit glyphs (R33; D6). -/
  fontGlyphs : Vector Byte 80
  /-- Whether SHR and SHL shift Vy (true) or Vx (false) (R71, R73; D9, OPEN). -/
  shiftReadsVy : Bool
  /-- What SYS does (R52; D8). -/
  sysPolicy : SysPolicy
  deriving DecidableEq, Repr

/-- The ranges R9 gives the open parameters: `stackDepth ≥ 1` and `fontBase + 80 ≤ 0x200`. -/
def Config.wf (c : Config) : Bool :=
  decide (1 ≤ c.stackDepth) && decide (c.fontBase.toNat + 80 ≤ 0x200)

/-! The free values. R13: "Every returned value is an input of the step, not a function of the core's state". Each is
applied to the counter `State.draws`, so that each draw is a new value; nothing can be proved of any of them. -/

/-- The nanoseconds of `iterate(elapsed)` that no supplied input fixes: any natural number (R24, U8). -/
opaque Config.freeElapsed : Nat → Nat

/-- `KeyPressed(k)`: any Boolean, for every 8-bit `k` (R80, R102, U6). -/
opaque Config.freeKeyPressed : Nat → Byte → Bool

/-- `KeyEvent()`: none or any key 0x0..0xF (R83, R102, U7). -/
opaque Config.freeKeyEvent : Nat → Option Nibble

/-- `RandomByte()`: any byte (R84, R103, U4). -/
opaque Config.freeRandomByte : Nat → Byte

/-- The collision answer of `DisplayDraw`: either bit (R86, R101, U5). -/
opaque Config.freeCollision : Nat → Bool

end Sys2Proof
end

