-- ==== Sys2Proof/Machine/Memory.lean ====
section
/-! DEFINITION. The memory image (spec/10_state.md R26, spec/20_memory.md): 4096 bytes as a list of cells in one
canonical form, and what an address that the list does not hold reads as, the reset content of R109. -/

namespace Sys2Proof.Machine

/-- The memory image: the cells that differ from the reset content, addresses strictly rising. -/
abbrev Memory := List Host.Cell

/-- The size of the address space, "4KB addressable memory" (R30): addresses 0x000..0xFFF. -/
def memSize : Nat := 0x1000

/-- What an address the list does not hold reads as: the content at reset (R33, R109), that is `fontGlyphs` at
`fontBase .. fontBase + 79` and 0 at every other address. -/
def resetByte (c : Config) (a : Nat) : Byte :=
  if h : c.fontBase.toNat ≤ a ∧ a - c.fontBase.toNat < 80 then c.fontGlyphs[a - c.fontBase.toNat]'h.2 else 0#8

/-- The byte at address `a`. The addresses rise, so the scan stops at the first one past `a`. -/
def Memory.read (c : Config) : Memory → Nat → Byte
  | [], a => resetByte c a
  | (k, b) :: rest, a =>
    if a = k then b else if a < k then resetByte c a else Memory.read c rest a

/-- Put byte `b` at address `a`, keeping the canonical form: a byte equal to the reset content is not listed. -/
def Memory.write (c : Config) : Memory → Nat → Byte → Memory
  | [], a, b => if b = resetByte c a then [] else [(a, b)]
  | (k, v) :: rest, a, b =>
    if a < k then (if b = resetByte c a then (k, v) :: rest else (a, b) :: (k, v) :: rest)
    else if a = k then (if b = resetByte c a then rest else (a, b) :: rest)
    else (k, v) :: Memory.write c rest a b

/-- Put bytes at ascending addresses from `a` (R31, R34). -/
def Memory.writeAll (c : Config) : Memory → Nat → List Byte → Memory
  | m, _, [] => m
  | m, a, b :: bs => Memory.writeAll c (Memory.write c m a b) (a + 1) bs

/-- The canonical form from address `lo` on: addresses rise from `lo`, lie in memory, and no cell equals the reset
content. -/
def Memory.wfFrom (c : Config) : Nat → Memory → Bool
  | _, [] => true
  | lo, (a, b) :: rest =>
    decide (lo ≤ a) && decide (a < memSize) && decide (b ≠ resetByte c a) && Memory.wfFrom c (a + 1) rest

/-- The canonical form. -/
def Memory.wf (c : Config) (m : Memory) : Bool := Memory.wfFrom c 0 m

end Sys2Proof.Machine
end

