-- ==== Sys2Proof/Machine/Params.lean ====
section
/-! DEFINITION. The parameter values of the machine that `State.reset` is (log entry 2). Every statement about a machine
of other parameters starts from `State.resetFor`. -/

namespace Sys2Proof.Machine

/-- The default `fontGlyphs` of spec/20_memory.md R33: five bytes per hexadecimal digit, digit 0 first. -/
def defaultGlyphBytes : List Byte :=
  [0xF0, 0x90, 0x90, 0x90, 0xF0] ++ [0x20, 0x60, 0x20, 0x20, 0x70] ++
  [0xF0, 0x10, 0xF0, 0x80, 0xF0] ++ [0xF0, 0x10, 0xF0, 0x10, 0xF0] ++
  [0x90, 0x90, 0xF0, 0x10, 0x10] ++ [0xF0, 0x80, 0xF0, 0x10, 0xF0] ++
  [0xF0, 0x80, 0xF0, 0x90, 0xF0] ++ [0xF0, 0x10, 0x20, 0x40, 0x40] ++
  [0xF0, 0x90, 0xF0, 0x90, 0xF0] ++ [0xF0, 0x90, 0xF0, 0x10, 0xF0] ++
  [0xF0, 0x90, 0xF0, 0x90, 0x90] ++ [0xE0, 0x90, 0xE0, 0x90, 0xE0] ++
  [0xF0, 0x80, 0x80, 0x80, 0xF0] ++ [0xE0, 0x90, 0x90, 0x90, 0xE0] ++
  [0xF0, 0x80, 0xF0, 0x80, 0xF0] ++ [0xF0, 0x80, 0xF0, 0x80, 0x80]

/-- The same table as the parameter's type has it. -/
def defaultGlyphs : Vector Byte 80 := ⟨defaultGlyphBytes.toArray, rfl⟩

/-- DESIGN CHOICE (log entry 2), from the spec where it has a value: `sysPolicy = fault` is the spec's choice (R9, D8), the
glyph table its default (R33, D6); `stackDepth = 16` and `fontBase = 0x000` are the values its test vectors use, not facts
of rip8 (R9, N4, N8); `shiftReadsVy` has no value in the spec (R9, D9), and false is chosen. -/
def defaultConfig : Config where
  stackDepth := 16
  fontBase := 0x000#12
  fontGlyphs := defaultGlyphs
  shiftReadsVy := false
  sysPolicy := .fault

end Sys2Proof.Machine
end

