-- ==== Sys2Proof/Machine/State.lean ====
section
/-! DEFINITION. Every piece of state of spec/10_state.md R17 to R26, the interface record of R27, the error record of
spec/60_exceptions.md R91, and the state `reset()` produces (spec/70_reset_and_hazards.md R108, R109). -/

namespace Sys2Proof.Machine

/-- The two cases "the source leaves without a value", which the kind Unspecified reports (R90). -/
inductive UnspecifiedCase where
  /-- "ADD I, Vx beyond 0xFFF" (R75, D14). -/
  | addIBeyond
  /-- "LD F, Vx digit above 0xF" (R76, D15). -/
  | digitAboveF
  deriving DecidableEq, Repr

/-- An error kind with its detail (R90, R91); `CoreError.code` gives the kind's number. -/
inductive CoreError where
  /-- Code 1: the raw nibbles of an unrecognised word (R44). -/
  | decodeError (a b c d : Nibble)
  /-- Code 2: "call-depth exceeded" (R54). -/
  | stackOverflow
  /-- Code 3: "return with empty stack" (R55). -/
  | stackUnderflow
  /-- Code 4: the lowest offending address, 16 bits (R30, R31, R32, R54). -/
  | outOfBoundsAccess (addr : Word)
  /-- Code 5: SYS under `sysPolicy = fault` (R52). -/
  | unsupportedSys (nnn : Addr)
  /-- Code 6: which case (R75, R76). -/
  | unspecified (which : UnspecifiedCase)
  deriving DecidableEq, Repr

/-- The error record of R91, the triple (kind, pc, detail). -/
structure ErrorRecord where
  /-- Kind and detail. -/
  error : CoreError
  /-- The address the faulting instruction was fetched from, or the pc that was being fetched. -/
  pc : Word
  deriving DecidableEq, Repr

/-- The core status (R25). -/
inductive Status where
  /-- The core fetches and executes. -/
  | running
  /-- "the only suspension point": waiting for a key for register x (R82, R83). -/
  | awaitingKey (x : RegId)
  /-- Stopped by an error until reset (R92, R94). -/
  | halted (record : ErrorRecord)
  deriving DecidableEq, Repr

/-- One request the block issued through a port of R27. -/
inductive Request where
  /-- DisplayClear() (R85). -/
  | displayClear
  /-- DisplayDraw(xpos, ypos, rows) (R86). -/
  | displayDraw (xpos ypos : Byte) (rows : List Byte)
  /-- KeyPressed(k), k an 8-bit value (R80, R81). -/
  | keyPressed (k : Byte)
  /-- KeyEvent(), once per iteration of the key wait (R83). -/
  | keyEvent
  /-- RandomByte() (R84). -/
  | randomByte
  deriving DecidableEq, Repr

/-- The inputs of the coming steps that are fixed in advance, in the order they will be given. A list that is empty
fixes nothing: the next input of its kind is then a free value of Config (log entry 3). -/
structure Inputs where
  /-- The arguments of the coming calls of `iterate` (R24). -/
  elapsed : List Nat
  /-- The coming answers of `KeyPressed` (R80). -/
  keyPressed : List Bool
  /-- The coming answers of `KeyEvent` (R83). -/
  keyEvent : List (Option Nibble)
  /-- The coming answers of `RandomByte` (R84). -/
  randomByte : List Byte
  /-- The coming collision answers of `DisplayDraw` (R86). -/
  collision : List Bool
  deriving DecidableEq, Repr

/-- Nothing fixed in advance: every input is free. -/
def Inputs.none : Inputs := ⟨[], [], [], [], []⟩

/-- The state of the block, with the model's own fields `cfg`, `inputs`, `draws` and `requests`. -/
structure State where
  /-- The machine's parameters (R9); no step changes them (log entry 1). -/
  cfg : Config
  /-- V0..VF (R17); VF is also the flag register (R18). -/
  v : Vector Byte 16
  /-- The address register I (R19). -/
  i : Addr
  /-- "the address of the next instruction word to fetch" (R20). -/
  pc : Word
  /-- How many return addresses the call stack holds, 0..stackDepth (R21). -/
  sp : Nat
  /-- stack[0..stackDepth-1], entry 0 first (R22). -/
  stack : List Addr
  /-- The delay counter DT (R23). -/
  dt : Byte
  /-- The sound counter ST (R23). -/
  st : Byte
  /-- The time since the last decrement in units of 1/60 ns (R23, R97). -/
  phase : Nat
  /-- Running, AwaitingKey(x) or Halted(e) (R25). -/
  status : Status
  /-- The memory image M[0x000..0xFFF] (R26). -/
  mem : Memory
  /-- The model's own: inputs fixed in advance (log entry 3). -/
  inputs : Inputs
  /-- The model's own: how many inputs have been drawn; the free values are applied to it (log entry 3). -/
  draws : Nat
  /-- The model's own: the requests issued since reset, oldest first (log entry 6). No step reads it. -/
  requests : List Request
  deriving DecidableEq, Repr

/-- The reasons a step stops with a fault: none. Every error of R90 has an entry that R92 describes (the status becomes
Halted with the record), so each is taken as a next state, and no state the spec gives no step exists (log entry 8). -/
inductive Fault where
  deriving DecidableEq, Repr

/-- The reasons a transaction is refused. -/
inductive Refusal where
  /-- Raised by `exec` for an instruction with no meaning yet; no arm does. Safe. -/
  | notModelled (mnemonic : String)
  /-- Raised by the host transaction `hostLoad` alone, never by a step: a program image of more than 3584 bytes, which
  the loader "must refuse ... before the core runs" (R110, U16). Safe: the core never starts. -/
  | imageTooLong
  deriving DecidableEq, Repr

/-- What a step or a meaning answers. -/
abbrev Result := Host.Outcome State Fault Refusal

/-- The state `reset()` produces for the parameters `c` (R108, R109): pc at the reset vector 0x200, everything else zero
(D5, log entry 4), status Running, memory with nothing listed; nothing drawn, nothing requested (log entry 5). -/
def State.resetFor (c : Config) : State where
  cfg := c
  v := Vector.replicate 16 0#8
  i := 0x000#12
  pc := 0x200#16
  sp := 0
  stack := List.replicate c.stackDepth 0x000#12
  dt := 0#8
  st := 0#8
  phase := 0
  status := .running
  mem := []
  inputs := Inputs.none
  draws := 0
  requests := []

/-- The machine right after reset, with the parameter values of log entry 2. -/
def State.reset : State := State.resetFor defaultConfig

end Sys2Proof.Machine
end

