-- ==== Sys2Proof/Machine/Ops.lean ====
section
/-! DEFINITION. The named operations over the state: one way to read and write each piece of it, the call stack (R22),
memory (R30, R31), the collaborators' requests (R13, R27), the pc updates (R51), fetch (R32), and taking an error (R92).
-/

namespace Sys2Proof.Machine

/-! ## Registers, timers, status -/

/-- V[x] (R12, R17). -/
def readReg (x : RegId) (s : State) : Byte := s.v[x.toNat]'x.isLt

/-- V[x] <- b (R12, R17). No register is hard-wired. -/
def writeReg (x : RegId) (b : Byte) (s : State) : State := { s with v := s.v.set x.toNat b x.isLt }

/-- I <- a (R19). -/
def writeI (a : Addr) (s : State) : State := { s with i := a }

/-- pc <- target (R12). -/
def setPc (target : Word) (s : State) : State := { s with pc := target }

/-- DT <- b (R78, R98). -/
def writeDt (b : Byte) (s : State) : State := { s with dt := b }

/-- ST <- b (R79, R98). -/
def writeSt (b : Byte) (s : State) : State := { s with st := b }

/-- The timer module's own update of its three pieces of state (R23, R97). -/
def setTimers (dt st : Byte) (phase : Nat) (s : State) : State := { s with dt := dt, st := st, phase := phase }

/-- status <- r (R25). -/
def setStatus (r : Status) (s : State) : State := { s with status := r }

/-- The source's halted flag: `halted = (status is Halted)` (R25). -/
def State.isHalted (s : State) : Bool :=
  match s.status with
  | .halted _ => true
  | .running => false
  | .awaitingKey _ => false

/-! ## The pc updates of R51 -/

/-- The default: `pc <- pc + 2`. -/
def advance (s : State) : State := setPc (s.pc + 2#16) s

/-- `pc <- pc + 4` when the condition holds, `pc <- pc + 2` otherwise. -/
def skipIf (taken : Bool) (s : State) : State := setPc (s.pc + if taken then 4#16 else 2#16) s

/-- `pc <- zext_16(nnn)`. -/
def jumpTo (nnn : Addr) (s : State) : State := setPc (nnn.zeroExtend 16) s

/-! ## Taking an error, and the way back -/

/-- A raise (R92): the step ends, the status becomes Halted with the record (kind, pc, detail) of R91, and everything else
stays as it was before the instruction. No register is saved, no mode changes, control goes to no vector. -/
def takeError (e : CoreError) (s : State) : State := setStatus (.halted ⟨e, s.pc⟩) s

/-- The only way out of Halted (R94: "There is no return-from-trap"): `reset()` sets every piece of state to its reset
value (R108). The parameters are the machine's; the inputs still to come and the draw counter are the environment's
(log entry 12). -/
def hostReset (s : State) : State := { State.resetFor s.cfg with inputs := s.inputs, draws := s.draws }

/-- The numeric code of an error kind (R90, D22). -/
def CoreError.code (e : CoreError) : Nat :=
  match e with
  | .decodeError _ _ _ _ => 1
  | .stackOverflow => 2
  | .stackUnderflow => 3
  | .outOfBoundsAccess _ => 4
  | .unsupportedSys _ => 5
  | .unspecified _ => 6


/-! ## The call stack (R22) -/

/-- `push(v)`: StackOverflow when the stack is full, checked before anything is written. -/
def push (a : Addr) (s : State) : Except CoreError State :=
  if s.sp = s.cfg.stackDepth then .error .stackOverflow
  else .ok { s with stack := s.stack.set s.sp a, sp := s.sp + 1 }

/-- The entry a pop returns: `stack[sp - 1]`. The default is met only in a state no run reaches (log entry 11). -/
def stackTop (s : State) : Addr := s.stack.getD (s.sp - 1) 0x000#12

/-- `pop()`: StackUnderflow when the stack is empty. -/
def pop (s : State) : Except CoreError (Addr × State) :=
  if s.sp = 0 then .error .stackUnderflow else .ok (stackTop s, { s with sp := s.sp - 1 })

/-! ## Memory (R30, R31) -/

/-- The byte at address `a`, without a bounds check. -/
def readByte (a : Nat) (s : State) : Byte := Memory.read s.cfg s.mem a

/-- The `n` bytes from `a` on, ascending, without a bounds check. -/
def readBytes (s : State) : Nat → Nat → List Byte
  | _, 0 => []
  | a, n + 1 => readByte a s :: readBytes s (a + 1) n

/-- The lowest of `n` addresses from `a` on that lies above 0xFFF. -/
def firstBeyond (a : Nat) : Nat → Option Nat
  | 0 => none
  | n + 1 => if a > 0xFFF then some a else firstBeyond (a + 1) n

/-- `MemRead(addr, n)`: every address is checked before any byte is read. -/
def memRead (addr n : Nat) (s : State) : Except CoreError (List Byte) :=
  match firstBeyond addr n with
  | some bad => .error (.outOfBoundsAccess (BitVec.ofNat 16 bad))
  | none => .ok (readBytes s addr n)

/-- `MemWrite(addr, n, bytes)`: every address is checked before any byte is written. -/
def memWrite (addr : Nat) (bytes : List Byte) (s : State) : Except CoreError State :=
  match firstBeyond addr bytes.length with
  | some bad => .error (.outOfBoundsAccess (BitVec.ofNat 16 bad))
  | none => .ok { s with mem := Memory.writeAll s.cfg s.mem addr bytes }

/-- `fetch()` (R32): the bytes at pc and pc + 1, the high byte first; raises when pc > 0xFFE and has no other effect. -/
def fetch (s : State) : Except CoreError (Byte × Byte) :=
  match memRead s.pc.toNat 2 s with
  | .ok _ => .ok (readByte s.pc.toNat s, readByte (s.pc.toNat + 1) s)
  | .error e => .error e

/-! ## The collaborators (R13, R101, R102, R103)

For each request: the answer that comes, and the state after it is issued. An answer fixed in advance is used first; when
none is, the answer is a free value (log entry 3). -/

/-- The `elapsed` of the iteration that is ending (R24). -/
def elapsedAnswer (s : State) : Nat := s.inputs.elapsed.headD (Config.freeElapsed s.draws)

/-- The state once that `elapsed` is used. -/
def takeElapsed (s : State) : State :=
  { s with inputs := { s.inputs with elapsed := s.inputs.elapsed.tail }, draws := s.draws + 1 }

/-- The answer to `KeyPressed(k)` (R80). -/
def keyPressedAnswer (k : Byte) (s : State) : Bool :=
  s.inputs.keyPressed.headD (Config.freeKeyPressed s.draws k)

/-- `KeyPressed(k)` is issued and answered. -/
def askKeyPressed (k : Byte) (s : State) : State :=
  { s with
    inputs := { s.inputs with keyPressed := s.inputs.keyPressed.tail }
    draws := s.draws + 1
    requests := s.requests ++ [.keyPressed k] }

/-- The answer to `KeyEvent()` (R83). -/
def keyEventAnswer (s : State) : Option Nibble := s.inputs.keyEvent.headD (Config.freeKeyEvent s.draws)

/-- `KeyEvent()` is issued and answered. -/
def askKeyEvent (s : State) : State :=
  { s with
    inputs := { s.inputs with keyEvent := s.inputs.keyEvent.tail }
    draws := s.draws + 1
    requests := s.requests ++ [.keyEvent] }

/-- The answer to `RandomByte()` (R84). -/
def randomAnswer (s : State) : Byte := s.inputs.randomByte.headD (Config.freeRandomByte s.draws)

/-- `RandomByte()` is issued and answered. -/
def askRandom (s : State) : State :=
  { s with
    inputs := { s.inputs with randomByte := s.inputs.randomByte.tail }
    draws := s.draws + 1
    requests := s.requests ++ [.randomByte] }

/-- The collision answer to `DisplayDraw` (R86). -/
def collisionAnswer (s : State) : Bool := s.inputs.collision.headD (Config.freeCollision s.draws)

/-- `DisplayDraw(xpos, ypos, rows)` is issued and answered. -/
def askDraw (xpos ypos : Byte) (rows : List Byte) (s : State) : State :=
  { s with
    inputs := { s.inputs with collision := s.inputs.collision.tail }
    draws := s.draws + 1
    requests := s.requests ++ [.displayDraw xpos ypos rows] }

/-- `DisplayClear()` is issued; it has no answer (R85). -/
def askClear (s : State) : State := { s with requests := s.requests ++ [.displayClear] }

/-! ## Outcomes -/

/-- Go on from a next state; a fault or a refusal stays what it is. -/
def onNext (f : State → State) (r : Result) : Result :=
  match r with
  | .next s => .next (f s)
  | .fault e => .fault e
  | .refused e => .refused e

end Sys2Proof.Machine
end

