-- ==== Sys2Proof/Machine/Operands.lean ====
section
/-! DEFINITION. The operands the meanings compute from the state: the shift's operand (R71), the sums that may leave their
range (R54, R56, R75), the glyph address (R76), the decimal digits (R87), and the register block V0..Vx (R88, R89). -/

namespace Sys2Proof.Machine

/-- The operand of SHR and SHL: Vy when `shiftReadsVy`, else Vx (R71, R73; D9). -/
def shiftOperand (x y : RegId) (s : State) : Byte := if s.cfg.shiftReadsVy then readReg y s else readReg x s

/-- "program counter after the call instruction", exact (R54). -/
def returnAddress (s : State) : Nat := s.pc.toNat + 2

/-- `zext_16(nnn) + zext_16(V[0])`, exact in 16 bits (R56). -/
def jumpV0Target (nnn : Addr) (s : State) : Word := nnn.zeroExtend 16 + (readReg 0x0#4 s).zeroExtend 16

/-- `zext_16(I) + zext_16(V[x])`, exact (R75). -/
def indexSum (x : RegId) (s : State) : Nat := s.i.toNat + (readReg x s).toNat

/-- `fontBase + 5 * g` (R76). -/
def glyphAddress (g : Byte) (s : State) : Addr := BitVec.ofNat 12 (s.cfg.fontBase.toNat + 5 * g.toNat)

/-- Hundreds, tens and ones of a byte (R87). -/
def decimalDigits (b : Byte) : List Byte :=
  [BitVec.ofNat 8 (b.toNat / 100), BitVec.ofNat 8 (b.toNat / 10 % 10), BitVec.ofNat 8 (b.toNat % 10)]

/-- `[V[j], V[j+1], ..., ]`, `n` registers from number `j` on (R88). -/
def regsFrom (s : State) : Nat → Nat → List Byte
  | _, 0 => []
  | j, n + 1 => readReg (BitVec.ofNat 4 j) s :: regsFrom s (j + 1) n

/-- `[V[0], ..., V[x]]` (R88). -/
def regBlock (x : RegId) (s : State) : List Byte := regsFrom s 0 (x.toNat + 1)

/-- `for each byte in turn: V[j] <- byte; j <- j + 1` (R89). -/
def writeRegsFrom : Nat → List Byte → State → State
  | _, [], s => s
  | j, b :: bs, s => writeRegsFrom (j + 1) bs (writeReg (BitVec.ofNat 4 j) b s)

end Sys2Proof.Machine
end

