-- ==== Sys2Proof/Machine/AddressReg.lean ====
section
/-! DEFINITION. The address register (spec/44_address.md R74 to R76). -/

namespace Sys2Proof.Machine

/-- LD I, nnn (R74). -/
def execLdINnn (nnn : Addr) (s : State) : Result := .next (advance (writeI nnn s))

/-- ADD I, Vx (R75): VF is not a flag here; a sum above 0xFFF raises Unspecified. -/
def execAddIVx (x : RegId) (s : State) : Result :=
  .next (if indexSum x s > 0xFFF then takeError (.unspecified .addIBeyond) s
    else advance (writeI (BitVec.ofNat 12 (indexSum x s)) s))

/-- LD F, Vx (R76): I at the glyph of the digit in Vx; a value above 0xF raises Unspecified. -/
def execLdFVx (x : RegId) (s : State) : Result :=
  .next (if (readReg x s).toNat > 0xF then takeError (.unspecified .digitAboveF) s
    else advance (writeI (glyphAddress (readReg x s) s) s))

end Sys2Proof.Machine
end

