-- ==== Sys2Proof/Machine/Flags.lean ====
section
/-! DEFINITION. The flag values of VF (spec/10_state.md R28, spec/43_alu.md R64) and the order in which a result and a flag
are written (R18, D10). -/

namespace Sys2Proof.Machine

/-- A flag is the byte 1 or 0. -/
def flagByte (f : Bool) : Byte := if f then 1#8 else 0#8

/-- The carry of `p + q`: 1 if the sum exceeds 0xFF (R69). -/
def carryFlag (p q : Byte) : Byte := flagByte (decide (p.toNat + q.toNat > 0xFF))

/-- The no-borrow flag of `p - q`: 1 if p ≥ q (R70, R72). -/
def noBorrowFlag (p q : Byte) : Byte := flagByte (decide (p.toNat ≥ q.toNat))

/-- The bit a right shift moves out: bit 0 (R71). -/
def lowBitFlag (b : Byte) : Byte := flagByte (b.getLsbD 0)

/-- The bit a left shift moves out: bit 7 (R73). -/
def highBitFlag (b : Byte) : Byte := flagByte (b.getLsbD 7)

/-- VF <- f. -/
def writeFlag (f : Byte) (s : State) : State := writeReg 0xF#4 f s

/-- A result and then its flag: "the flag is written last and is the value VF holds afterwards" (R18). -/
def writeResultAndFlag (x : RegId) (r f : Byte) (s : State) : State := writeFlag f (writeReg x r s)

end Sys2Proof.Machine
end

