-- ==== Sys2Proof/Machine/Alu.lean ====
section
/-! DEFINITION. The register ALU (spec/43_alu.md R64 to R73). Every operand is read before the first write; a flag is
written after its result. -/

namespace Sys2Proof.Machine

/-- LD Vx, Vy (R65). -/
def execLdVxVy (x y : RegId) (s : State) : Result := .next (advance (writeReg x (readReg y s) s))

/-- OR Vx, Vy (R66); VF is not cleared (D11). -/
def execOr (x y : RegId) (s : State) : Result := .next (advance (writeReg x (readReg x s ||| readReg y s) s))

/-- AND Vx, Vy (R67); VF is not cleared (D11). -/
def execAnd (x y : RegId) (s : State) : Result := .next (advance (writeReg x (readReg x s &&& readReg y s) s))

/-- XOR Vx, Vy (R68); VF is not cleared (D11). -/
def execXor (x y : RegId) (s : State) : Result := .next (advance (writeReg x (readReg x s ^^^ readReg y s) s))

/-- ADD Vx, Vy (R69): the sum modulo 256, VF its carry. -/
def execAddVxVy (x y : RegId) (s : State) : Result :=
  .next (advance (writeResultAndFlag x (readReg x s + readReg y s) (carryFlag (readReg x s) (readReg y s)) s))

/-- SUB Vx, Vy (R70): Vx - Vy modulo 256, VF 1 when no borrow. -/
def execSub (x y : RegId) (s : State) : Result :=
  .next (advance (writeResultAndFlag x (readReg x s - readReg y s) (noBorrowFlag (readReg x s) (readReg y s)) s))

/-- SHR Vx, Vy (R71): the operand halved, VF the bit shifted out. -/
def execShr (x y : RegId) (s : State) : Result :=
  .next (advance (writeResultAndFlag x (shiftOperand x y s >>> 1) (lowBitFlag (shiftOperand x y s)) s))

/-- SUBN Vx, Vy (R72): Vy - Vx modulo 256, VF 1 when no borrow. -/
def execSubn (x y : RegId) (s : State) : Result :=
  .next (advance (writeResultAndFlag x (readReg y s - readReg x s) (noBorrowFlag (readReg y s) (readReg x s)) s))

/-- SHL Vx, Vy (R73): the operand doubled modulo 256, VF the bit shifted out. -/
def execShl (x y : RegId) (s : State) : Result :=
  .next (advance (writeResultAndFlag x (shiftOperand x y s <<< 1) (highBitFlag (shiftOperand x y s)) s))

end Sys2Proof.Machine
end

