-- ==== Sys2Proof/Machine/Control.lean ====
section
/-! DEFINITION. Control transfer (spec/40_control.md R52 to R56). -/

namespace Sys2Proof.Machine

/-- SYS nnn (R52): UnsupportedSys under `sysPolicy = fault`, else only the pc advances. -/
def execSys (nnn : Addr) (s : State) : Result :=
  .next (match s.cfg.sysPolicy with
    | .fault => takeError (.unsupportedSys nnn) s
    | .nop => advance s)

/-- RET (R55): pop and jump there, or StackUnderflow. -/
def execRet (s : State) : Result :=
  .next (match pop s with
    | .ok (target, t) => jumpTo target t
    | .error e => takeError e s)

/-- JP nnn (R53). -/
def execJp (nnn : Addr) (s : State) : Result := .next (jumpTo nnn s)

/-- CALL nnn (R54): StackOverflow is checked first, then the return address, then it is pushed. -/
def execCall (nnn : Addr) (s : State) : Result :=
  .next (if s.sp = s.cfg.stackDepth then takeError .stackOverflow s
    else if returnAddress s > 0xFFF then takeError (.outOfBoundsAccess (BitVec.ofNat 16 (returnAddress s))) s
    else match push (BitVec.ofNat 12 (returnAddress s)) s with
      | .ok t => jumpTo nnn t
      | .error e => takeError e s)

/-- JP V0, nnn (R56): the sum does not wrap to 12 bits. -/
def execJpV0 (nnn : Addr) (s : State) : Result := .next (setPc (jumpV0Target nnn s) s)

end Sys2Proof.Machine
end

