-- ==== Sys2Proof/Machine/DisplayMemory.lean ====
section
/-! DEFINITION. Display requests and memory-block operations (spec/47_display_memory.md R85 to R89). No operation here
writes I. -/

namespace Sys2Proof.Machine

/-- CLS (R85): one clear request; the core holds no framebuffer. -/
def execCls (s : State) : Result := .next (advance (askClear s))

/-- DRW Vx, Vy, n (R86): read n bytes at I, then send them with the coordinates; VF takes the collision answer. When the
bytes run past 0xFFF no request is issued. -/
def execDrw (x y : RegId) (n : Nibble) (s : State) : Result :=
  .next (match memRead s.i.toNat n.toNat s with
    | .ok rows =>
      advance (writeFlag (flagByte (collisionAnswer s)) (askDraw (readReg x s) (readReg y s) rows s))
    | .error e => takeError e s)

/-- LD B, Vx (R87): hundreds, tens and ones at I, I + 1, I + 2. -/
def execLdBVx (x : RegId) (s : State) : Result :=
  .next (match memWrite s.i.toNat (decimalDigits (readReg x s)) s with
    | .ok t => advance t
    | .error e => takeError e s)

/-- LD [I], Vx (R88): V0..Vx at I .. I + x. -/
def execLdIVx (x : RegId) (s : State) : Result :=
  .next (match memWrite s.i.toNat (regBlock x s) s with
    | .ok t => advance t
    | .error e => takeError e s)

/-- LD Vx, [I] (R89): V0..Vx from I .. I + x. -/
def execLdVxI (x : RegId) (s : State) : Result :=
  .next (match memRead s.i.toNat (x.toNat + 1) s with
    | .ok bytes => advance (writeRegsFrom 0 bytes s)
    | .error e => takeError e s)

end Sys2Proof.Machine
end

