-- ==== Sys2Proof/Machine/Input.lean ====
section
/-! DEFINITION. Input queries and the random value (spec/46_input.md R80 to R84). -/

namespace Sys2Proof.Machine

/-- SKP Vx (R80): the query carries the full 8-bit Vx. -/
def execSkp (x : RegId) (s : State) : Result :=
  .next (skipIf (keyPressedAnswer (readReg x s) s) (askKeyPressed (readReg x s) s))

/-- SKNP Vx (R81). -/
def execSknp (x : RegId) (s : State) : Result :=
  .next (skipIf (!keyPressedAnswer (readReg x s) s) (askKeyPressed (readReg x s) s))

/-- LD Vx, K, execute stage (R82): the core suspends; pc stays and no register is written yet. -/
def execLdVxK (x : RegId) (s : State) : Result := .next (setStatus (.awaitingKey x) s)

/-- `keyWaitPoll(x)` (R83): on a key its number goes to Vx, the pc advances and the core runs again. -/
def keyWaitPoll (x : RegId) (s : State) : State :=
  match keyEventAnswer s with
  | some k => setStatus .running (advance (writeReg x (k.zeroExtend 8) (askKeyEvent s)))
  | none => askKeyEvent s

/-- RND Vx, kk (R84): the random byte masked by kk. -/
def execRnd (x : RegId) (kk : Byte) (s : State) : Result :=
  .next (advance (writeReg x (randomAnswer s &&& kk) (askRandom s)))

end Sys2Proof.Machine
end

