-- ==== Sys2Proof/Machine/RegImm.lean ====
section
/-! DEFINITION. Register and immediate arithmetic (spec/42_reg_imm.md R62, R63). -/

namespace Sys2Proof.Machine

/-- LD Vx, kk (R62). -/
def execLdVxKk (x : RegId) (kk : Byte) (s : State) : Result := .next (advance (writeReg x kk s))

/-- ADD Vx, kk (R63): wraps modulo 256 and writes no flag. -/
def execAddVxKk (x : RegId) (kk : Byte) (s : State) : Result :=
  .next (advance (writeReg x (readReg x s + kk) s))

end Sys2Proof.Machine
end

