-- ==== Sys2Proof/Machine/Skip.lean ====
section
/-! DEFINITION. Conditional skips on register values (spec/41_skip.md R58 to R61). -/

namespace Sys2Proof.Machine

/-- SE Vx, kk (R58). -/
def execSeVxKk (x : RegId) (kk : Byte) (s : State) : Result := .next (skipIf (readReg x s == kk) s)

/-- SNE Vx, kk (R59). -/
def execSneVxKk (x : RegId) (kk : Byte) (s : State) : Result := .next (skipIf (readReg x s != kk) s)

/-- SE Vx, Vy (R60). -/
def execSeVxVy (x y : RegId) (s : State) : Result := .next (skipIf (readReg x s == readReg y s) s)

/-- SNE Vx, Vy (R61). -/
def execSneVxVy (x y : RegId) (s : State) : Result := .next (skipIf (readReg x s != readReg y s) s)

end Sys2Proof.Machine
end

