-- ==== Sys2Proof/Machine/Timer.lean ====
section
/-! DEFINITION. Timer access (spec/45_timer.md R77 to R79) and the timer module's advance (spec/60_exceptions.md R97). -/

namespace Sys2Proof.Machine

/-- LD Vx, DT (R77). -/
def execLdVxDt (x : RegId) (s : State) : Result := .next (advance (writeReg x s.dt s))

/-- LD DT, Vx (R78): the phase is not reset (D25). -/
def execLdDtVx (x : RegId) (s : State) : Result := .next (advance (writeDt (readReg x s) s))

/-- LD ST, Vx (R79): the phase is not reset (D25). -/
def execLdStVx (x : RegId) (s : State) : Result := .next (advance (writeSt (readReg x s) s))

/-- Units of 1/60 ns in one tick period of 1/60 s (R23, R97). -/
def periodUnits : Nat := 1000000000

/-- A counter after `ticks` decrements, saturating at zero (R97). -/
def countDown (b : Byte) (ticks : Nat) : Byte :=
  if b.toNat > ticks then BitVec.ofNat 8 (b.toNat - ticks) else 0#8

/-- `timerAdvance(elapsed)`, elapsed in nanoseconds (R97). -/
def timerAdvance (elapsed : Nat) (s : State) : State :=
  let total := s.phase + 60 * elapsed
  let ticks := total / periodUnits
  setTimers (countDown s.dt ticks) (countDown s.st ticks) (total % periodUnits) s

/-- The sound output: the tone is on exactly when ST ≠ 0 (R100, D27). -/
def toneOn (s : State) : Bool := s.st != 0#8

end Sys2Proof.Machine
end

