-- ==== Sys2Proof/Machine/Iterate.lean ====
section
/-! DEFINITION. One run-loop iteration (spec/10_state.md R24): fetch, decode and execute (spec/40_control.md R51), or the
key wait's poll, or nothing; then the timer advance. And the host's transactions (R27). -/

namespace Sys2Proof.Machine

/-- R51's `step()`: fetch, decode, execute, in that order; the first raise ends it. A decode failure's
nibbles get the pc when the error is taken (R43, D33). -/
def runInstruction (s : State) : Result :=
  match fetch s with
  | .error e => .next (takeError e s)
  | .ok (hi, lo) =>
    match decode hi lo with
    | .error word => .next (takeError (.decodeError word.a word.b word.c word.d) s)
    | .ok i => exec i s

/-- The first part of an iteration, by the status (R24). -/
def activity (s : State) : Result :=
  match s.status with
  | .running => runInstruction s
  | .awaitingKey x => .next (keyWaitPoll x s)
  | .halted _ => .next s

/-- The second part: "if status is not Halted then timerAdvance(elapsed)" (R24, R99). -/
def finishWith (elapsed : Nat) (s : State) : State := if s.isHalted then s else timerAdvance elapsed s

/-- The second part with the `elapsed` the host chooses, an input (R24, D26; log entry 9). -/
def finishIteration (s : State) : State :=
  if s.isHalted then s else timerAdvance (elapsedAnswer s) (takeElapsed s)

/-! ## The host's transactions (R27) -/

/-- `iterate(elapsed)` with its argument (R24). -/
def iterate (elapsed : Nat) (s : State) : Result := onNext (finishWith elapsed) (activity s)

/-- The address a program image is loaded at, and its largest size, 0x1000 - 0x200 (R110). -/
def loadAddress : Nat := 0x200

/-- `load(bytes)` (R110): the image at 0x200 on; the loader refuses one of more than 3584 bytes (D30). The host applies it
after `reset()` and before the first iteration. -/
def hostLoad (bytes : List Byte) (s : State) : Result :=
  if bytes.length > memSize - loadAddress then .refused .imageTooLong
  else .next { s with mem := Memory.writeAll s.cfg s.mem loadAddress bytes }

end Sys2Proof.Machine
end

