-- ==== Sys2Proof/Machine/Step.lean ====
section
/-! DEFINITION. The step function: one run-loop iteration of spec/10_state.md R24, with the host's `elapsed` as an input. -/

namespace Sys2Proof.Machine

/-- One iteration: the activity of the status, then the timers. -/
def step (s : State) : Host.Outcome State Fault Refusal := onNext finishIteration (activity s)

/-- Where the next fetch can be placed: the pc where a word fits there, else the reset vector. -/
def fetchPlace (s : State) : Word := if s.pc.toNat ≤ 0xFFE then s.pc else 0x200#16

/-- `s` with the table word `w` where the very next step fetches it: two bytes at the pc, high byte first, and the status
Running, without which no fetch takes place (log entry 10). -/
def State.withFetchWord (s : State) (nbits w : Nat) : State :=
  { s with
    pc := fetchPlace s
    status := .running
    mem := Memory.writeAll s.cfg s.mem (fetchPlace s).toNat (wordBytes (BitVec.ofNat 16 (w % 2 ^ nbits))) }

end Sys2Proof.Machine
end

