-- ==== Sys2Proof/Machine/Text.lean ====
section
/-! DEFINITION. The canonical text form of an Operation (spec/30_encoding.md R47, R48; D32), which the host can observe
(spec/60_exceptions.md R105), and reading it back ("parses back to the same Operation", R47). -/

namespace Sys2Proof.Machine

/-- One uppercase hexadecimal digit. -/
def hexDigit (n : Nibble) : Char :=
  if n.toNat < 10 then Char.ofNat ('0'.toNat + n.toNat) else Char.ofNat ('A'.toNat + (n.toNat - 10))

/-- "constants as two". -/
def hexByte (b : Byte) : List Char := [hexDigit (hiNibble b), hexDigit (loNibble b)]

/-- "addresses render as three uppercase hex digits". -/
def hexAddr (a : Addr) : List Char := [hexDigit (addrHi a), hexDigit (addrMid a), hexDigit (addrLo a)]

/-- "registers as `V` followed by one uppercase hex digit". -/
def regName (x : RegId) : List Char := ['V', hexDigit x]

/-- A mnemonic and its operands; operands are separated by a comma and a space (D32). -/
def textLine (mnemonic : String) (operands : List (List Char)) : List Char :=
  mnemonic.toList ++ (match operands with
    | [] => []
    | o :: rest => ' ' :: o ++ rest.flatMap (fun p => ',' :: ' ' :: p))

/-- The characters of an Operation's text form, row by row of R48. -/
def textChars (i : Instr) : List Char :=
  match i with
  | .sys nnn => textLine "SYS" [hexAddr nnn]
  | .cls => textLine "CLS" []
  | .ret => textLine "RET" []
  | .jp nnn => textLine "JP" [hexAddr nnn]
  | .call nnn => textLine "CALL" [hexAddr nnn]
  | .seVxKk x kk => textLine "SE" [regName x, hexByte kk]
  | .sneVxKk x kk => textLine "SNE" [regName x, hexByte kk]
  | .seVxVy x y => textLine "SE" [regName x, regName y]
  | .ldVxKk x kk => textLine "LD" [regName x, hexByte kk]
  | .addVxKk x kk => textLine "ADD" [regName x, hexByte kk]
  | .ldVxVy x y => textLine "LD" [regName x, regName y]
  | .orVxVy x y => textLine "OR" [regName x, regName y]
  | .andVxVy x y => textLine "AND" [regName x, regName y]
  | .xorVxVy x y => textLine "XOR" [regName x, regName y]
  | .addVxVy x y => textLine "ADD" [regName x, regName y]
  | .sub x y => textLine "SUB" [regName x, regName y]
  | .shr x y => textLine "SHR" [regName x, regName y]
  | .subn x y => textLine "SUBN" [regName x, regName y]
  | .shl x y => textLine "SHL" [regName x, regName y]
  | .sneVxVy x y => textLine "SNE" [regName x, regName y]
  | .ldINnn nnn => textLine "LD" [['I'], hexAddr nnn]
  | .jpV0 nnn => textLine "JP" [['V', '0'], hexAddr nnn]
  | .rnd x kk => textLine "RND" [regName x, hexByte kk]
  | .drw x y n => textLine "DRW" [regName x, regName y, [hexDigit n]]
  | .skp x => textLine "SKP" [regName x]
  | .sknp x => textLine "SKNP" [regName x]
  | .ldVxDt x => textLine "LD" [regName x, ['D', 'T']]
  | .ldVxK x => textLine "LD" [regName x, ['K']]
  | .ldDtVx x => textLine "LD" [['D', 'T'], regName x]
  | .ldStVx x => textLine "LD" [['S', 'T'], regName x]
  | .addIVx x => textLine "ADD" [['I'], regName x]
  | .ldFVx x => textLine "LD" [['F'], regName x]
  | .ldBVx x => textLine "LD" [['B'], regName x]
  | .ldIVx x => textLine "LD" [['[', 'I', ']'], regName x]
  | .ldVxI x => textLine "LD" [regName x, ['[', 'I', ']']]

/-- The canonical text form, "a stable output contract". -/
def instrText (i : Instr) : String := String.ofList (textChars i)

/-! ## Reading a text back (R47)

Only the canonical form is a text of an Operation (log entry 24): a lower-case digit, a missing or a further space, a
prefix, and a number of another length are read as nothing. -/

/-- The value of one uppercase hexadecimal digit. -/
def readDigit (c : Char) : Option Nibble :=
  match c with
  | '0' => some 0x0#4
  | '1' => some 0x1#4
  | '2' => some 0x2#4
  | '3' => some 0x3#4
  | '4' => some 0x4#4
  | '5' => some 0x5#4
  | '6' => some 0x6#4
  | '7' => some 0x7#4
  | '8' => some 0x8#4
  | '9' => some 0x9#4
  | 'A' => some 0xA#4
  | 'B' => some 0xB#4
  | 'C' => some 0xC#4
  | 'D' => some 0xD#4
  | 'E' => some 0xE#4
  | 'F' => some 0xF#4
  | _ => none

/-- A count, one digit. -/
def readCount (cs : List Char) : Option Nibble :=
  match cs with
  | [c] => readDigit c
  | _ => none

/-- A constant, two digits. -/
def readHexByte (cs : List Char) : Option Byte :=
  match cs with
  | [c, d] => (readDigit c).bind fun p => (readDigit d).map fun q => packByte p q
  | _ => none

/-- An address, three digits. -/
def readHexAddr (cs : List Char) : Option Addr :=
  match cs with
  | [b, c, d] => (readDigit b).bind fun p => (readDigit c).bind fun q => (readDigit d).map fun r => packAddr p q r
  | _ => none

/-- A register name, `V` and one digit. -/
def readRegName (cs : List Char) : Option RegId :=
  match cs with
  | ['V', c] => readDigit c
  | _ => none

/-- Put a character in front of the first operand. -/
def consToFirst (c : Char) (ops : List (List Char)) : List (List Char) :=
  match ops with
  | [] => [[c]]
  | o :: rest => (c :: o) :: rest

/-- The operands of a text, which a comma and a space separate (D32). -/
def splitOperands : List Char → List (List Char)
  | [] => [[]]
  | ',' :: ' ' :: cs => [] :: splitOperands cs
  | c :: cs => consToFirst c (splitOperands cs)

/-- A text as its mnemonic, up to the first space, and its operands. -/
def splitLine : List Char → List Char × List (List Char)
  | [] => ([], [])
  | c :: cs => if c = ' ' then ([], splitOperands cs) else ((splitLine cs).map (c :: ·) id)

/-- An instruction with no operand. -/
def readNone (i : Instr) (ops : List (List Char)) : Option Instr :=
  match ops with
  | [] => some i
  | _ => none

/-- An instruction with one operand. -/
def readOne {α : Type} (f : List Char → Option α) (mk : α → Instr) (ops : List (List Char)) : Option Instr :=
  match ops with
  | [o] => (f o).map mk
  | _ => none

/-- An instruction with two operands. -/
def readTwo {α β : Type} (f : List Char → Option α) (g : List Char → Option β) (mk : α → β → Instr)
    (ops : List (List Char)) : Option Instr :=
  match ops with
  | [o, p] => (f o).bind fun a => (g p).map (mk a)
  | _ => none

/-- An operand that is a fixed name, such as `DT` or `[I]`. -/
def readName (name : String) (cs : List Char) : Option Unit := if cs = name.toList then some () else none

/-- DRW, the one instruction with three operands. -/
def readDrw (ops : List (List Char)) : Option Instr :=
  match ops with
  | [o, p, q] => (readRegName o).bind fun x => (readRegName p).bind fun y => (readCount q).map (.drw x y)
  | _ => none

/-- The forms of R48 with each mnemonic. The forms of one mnemonic have no text in common, so their order says nothing. -/
def formReaders : List (String × (List (List Char) → Option Instr)) :=
  [("SYS", readOne readHexAddr .sys), ("CLS", readNone .cls), ("RET", readNone .ret),
   ("JP", readOne readHexAddr .jp), ("CALL", readOne readHexAddr .call),
   ("JP", readTwo (readName "V0") readHexAddr fun _ => .jpV0)] ++
  [("SE", readTwo readRegName readHexByte .seVxKk), ("SNE", readTwo readRegName readHexByte .sneVxKk),
   ("SE", readTwo readRegName readRegName .seVxVy), ("SNE", readTwo readRegName readRegName .sneVxVy)] ++
  [("LD", readTwo readRegName readHexByte .ldVxKk), ("ADD", readTwo readRegName readHexByte .addVxKk),
   ("RND", readTwo readRegName readHexByte .rnd), ("LD", readTwo readRegName readRegName .ldVxVy),
   ("OR", readTwo readRegName readRegName .orVxVy), ("AND", readTwo readRegName readRegName .andVxVy),
   ("XOR", readTwo readRegName readRegName .xorVxVy), ("ADD", readTwo readRegName readRegName .addVxVy)] ++
  [("SUB", readTwo readRegName readRegName .sub), ("SHR", readTwo readRegName readRegName .shr),
   ("SUBN", readTwo readRegName readRegName .subn), ("SHL", readTwo readRegName readRegName .shl),
   ("DRW", readDrw), ("SKP", readOne readRegName .skp), ("SKNP", readOne readRegName .sknp)] ++
  [("LD", readTwo (readName "I") readHexAddr fun _ => .ldINnn),
   ("LD", readTwo readRegName (readName "DT") fun x _ => .ldVxDt x),
   ("LD", readTwo readRegName (readName "K") fun x _ => .ldVxK x),
   ("LD", readTwo (readName "DT") readRegName fun _ => .ldDtVx),
   ("LD", readTwo (readName "ST") readRegName fun _ => .ldStVx),
   ("ADD", readTwo (readName "I") readRegName fun _ => .addIVx)] ++
  [("LD", readTwo (readName "F") readRegName fun _ => .ldFVx), ("LD", readTwo (readName "B") readRegName fun _ => .ldBVx),
   ("LD", readTwo (readName "[I]") readRegName fun _ => .ldIVx),
   ("LD", readTwo readRegName (readName "[I]") fun x _ => .ldVxI x)]

/-- The Operation whose canonical text the characters are, if they are one. `SYS 0E0` and `SYS 0EE` are none (R52). -/
def parseChars (cs : List Char) : Option Instr :=
  formReaders.findSome? fun form =>
    if (splitLine cs).1 = form.1.toList then (form.2 (splitLine cs).2).filter Instr.wf else none

/-- The Operation whose canonical text the string is, if it is one. -/
def parseText (text : String) : Option Instr := parseChars text.toList

end Sys2Proof.Machine
end

