-- ==== Sys2Proof/Safety.lean ====
section
/-! DEFINITION. The terms the claims are stated in: the invariant of a machine that started from reset, the parts of the
state a frame speaks of, and what a safe run and a program at rest are. -/

namespace Sys2Proof.Machine

/-- The instruction in memory at the pc is `i`: the pc admits a fetch and the two bytes there decode to `i` (R32, R43). -/
def State.InstrAtPc (s : State) (i : Instr) : Prop :=
  s.pc.toNat ≤ 0xFFE ∧ decode (readByte s.pc.toNat s) (readByte (s.pc.toNat + 1) s) = .ok i

/-- What holds at reset and after every step. -/
structure State.Inv (s : State) : Prop where
  /-- The parameters lie in the ranges of R9. -/
  cfg_wf : s.cfg.wf = true
  /-- The call stack is an array of `stackDepth` entries (R22). -/
  stack_length : s.stack.length = s.cfg.stackDepth
  /-- sp takes values 0..stackDepth (R21). -/
  sp_le : s.sp ≤ s.cfg.stackDepth
  /-- The pc is at most 0xFFF + 0xFF, the largest target of JP V0 (R51, R56). -/
  pc_le : s.pc.toNat ≤ 0x10FE
  /-- 0 ≤ phase < 1 000 000 000 (R23). -/
  phase_lt : s.phase < 1000000000
  /-- The memory image is in its canonical form. -/
  mem_wf : Memory.wf s.cfg s.mem = true
  /-- "While the status is AwaitingKey(x), pc still holds the address of this instruction" (R82). -/
  awaiting : ∀ x, s.status = .awaitingKey x → s.InstrAtPc (.ldVxK x)
  /-- A halted core's record holds the pc, which stays at the faulting instruction (R51, R91). -/
  halted : ∀ r, s.status = .halted r → r.pc = s.pc

/-- The parts of the state a frame names. The pc is none of them: a frame's statement gives it. -/
inductive Part where
  /-- V0..VF. -/
  | regs
  /-- The address register I. -/
  | index
  /-- sp and the stack entries. -/
  | stack
  /-- DT, ST and phase. -/
  | timers
  /-- Running, AwaitingKey or Halted. -/
  | status
  /-- Every byte of memory, as read. -/
  | memory
  /-- The requests issued and the inputs used. -/
  | ports
  deriving DecidableEq, Repr

/-- The part is the same in both states. -/
def Part.Same (p : Part) (s t : State) : Prop :=
  match p with
  | .regs => t.v = s.v
  | .index => t.i = s.i
  | .stack => t.sp = s.sp ∧ t.stack = s.stack
  | .timers => t.dt = s.dt ∧ t.st = s.st ∧ t.phase = s.phase
  | .status => t.status = s.status
  | .memory => ∀ a, readByte a t = readByte a s
  | .ports => t.inputs = s.inputs ∧ t.draws = s.draws ∧ t.requests = s.requests

/-- From `s` to `t` every part but those listed is the same, and so are the machine's parameters. -/
def SameBut (changed : List Part) (s t : State) : Prop :=
  t.cfg = s.cfg ∧ ∀ p, p ∉ changed → p.Same s t

/-- `n` iterations from `s` end in a state that is not Halted (R117: a run ends when the status is Halted). -/
def SafeRun (n : Nat) (s : State) : Prop := ∃ t, Sys2Proof.core.run n s = .next t ∧ t.isHalted = false

/-- A program at rest (R117, D34): the core runs and the pc points at a JP to itself. -/
def State.AtRest (s : State) : Prop :=
  s.status = .running ∧ ∃ nnn : Addr, s.InstrAtPc (.jp nnn) ∧ nnn.zeroExtend 16 = s.pc

end Sys2Proof.Machine
end

