-- ==== Sys2Proof/Certificates/Slice0/Obligations.lean ====
section
/-! DEFINITION. The statements for the provers. A statement of an instruction gives its word (R41, R43), says that `exec`
answers a next state, and gives that state: the pc, what is written, and the frame (`SameBut`). Where a clause rests on a
decision the spec marks as its own (D<n> of spec/92_eei_decisions.md), the docstring names it and the basis is derived.
Words and meanings the spec's rules have from general knowledge are taken as the rules state them (log entry 14). -/

open Sys2Proof Sys2Proof.Machine

/-! ## Decoding and encoding -/

/-- Decode of encode is the instruction, for every well-formed instruction and every operand value (R41, R42, R43). -/
def Obligations.DecodeOfEncode : Prop :=
  ∀ i : Instr, i.wf = true → decode (encode i).1 (encode i).2 = .ok i ∧ decodeWord (encodeWord i) = .ok i

/-- Whatever word decodes, it is the one word of a well-formed instruction (R43). -/
def Obligations.EncodeOfDecode : Prop :=
  ∀ (hi lo : Byte) (i : Instr), decode hi lo = .ok i → i.wf = true ∧ encode i = (hi, lo)

/-- The words of R44's table are those that fail, each with its own raw nibbles; every other word decodes. -/
def Obligations.IllegalWordsAreExactlyTheTable : Prop :=
  ∀ a b c d : Nibble,
    let illegal : Prop :=
      (a = 0x5#4 ∧ d ≠ 0x0#4) ∨
      (a = 0x8#4 ∧ d ∈ [0x8#4, 0x9#4, 0xA#4, 0xB#4, 0xC#4, 0xD#4, 0xF#4]) ∨
      (a = 0x9#4 ∧ d ≠ 0x0#4) ∨
      (a = 0xE#4 ∧ c ++ d ∉ [0x9E#8, 0xA1#8]) ∨
      (a = 0xF#4 ∧ c ++ d ∉ [0x07#8, 0x0A#8, 0x15#8, 0x18#8, 0x1E#8, 0x29#8, 0x33#8, 0x55#8, 0x65#8])
    (illegal → decode (a ++ b) (c ++ d) = .error ⟨a, b, c, d⟩) ∧
    (¬ illegal → ∃ i, decode (a ++ b) (c ++ d) = .ok i)

/-- Words written out from the spec's encodings decode to the instructions they stand for (R43, R44; the words of
spec/95_test_vectors.md 2.1). -/
def Obligations.WrittenOutWordsDecode : Prop :=
  decodeWord 0x6123#16 = .ok (.ldVxKk 0x1#4 0x23#8) ∧ decodeWord 0x00E0#16 = .ok .cls ∧
  decodeWord 0x00EE#16 = .ok .ret ∧ decodeWord 0x00E1#16 = .ok (.sys 0x0E1#12) ∧
  decodeWord 0x1ABC#16 = .ok (.jp 0xABC#12) ∧ decodeWord 0x8AB6#16 = .ok (.shr 0xA#4 0xB#4) ∧
  decodeWord 0xD12F#16 = .ok (.drw 0x1#4 0x2#4 0xF#4) ∧ decodeWord 0xFA65#16 = .ok (.ldVxI 0xA#4) ∧
  decodeWord 0xF0FF#16 = .error ⟨0xF#4, 0x0#4, 0xF#4, 0xF#4⟩

/-- The canonical text form is unique per Operation (R47, R48; separators and prefix: D32). -/
def Obligations.TextFormIsUnique : Prop :=
  ∀ i j : Instr, instrText i = instrText j → i = j

/-- The text form "parses back to the same Operation", and every text that parses is the canonical text of the Operation
it gives (R47, R48; separators and prefix: D32; that another spelling is read as nothing: log entry 24). -/
def Obligations.TextParsesBack : Prop :=
  (∀ i : Instr, i.wf = true → parseText (instrText i) = some i) ∧
  (∀ (text : String) (i : Instr), parseText text = some i → i.wf = true ∧ instrText i = text)

/-! ## The iteration -/

/-- A step runs the decoded instruction: with the core running and `i` in memory at the pc, the step is `exec i` on that
state, and then the timer advance unless the instruction halted the core (R24, R51; that the instruction comes first: D26). -/
def Obligations.StepRunsDecodedInstruction : Prop :=
  ∀ (s t : State) (i : Instr), s.status = .running → s.InstrAtPc i → exec i s = .next t →
    step s = .next (if t.isHalted then t else timerAdvance (elapsedAnswer t) (takeElapsed t))

/-- Fetch reads the bytes at pc and pc + 1 as memory is now; above 0xFFE it raises OutOfBoundsAccess with the lowest
address beyond memory, and a step then only halts the core with that record (R32, R30; halting: D22). -/
def Obligations.FetchReadsTwoBytesOrRaises : Prop :=
  ∀ s : State,
    (s.pc.toNat ≤ 0xFFE → fetch s = .ok (readByte s.pc.toNat s, readByte (s.pc.toNat + 1) s)) ∧
    (s.pc.toNat > 0xFFE →
      let bad : Word := if s.pc = 0xFFF#16 then 0x1000#16 else s.pc
      fetch s = .error (.outOfBoundsAccess bad) ∧
      (s.status = .running →
        step s = .next { s with status := .halted ⟨.outOfBoundsAccess bad, s.pc⟩ }))

/-- An unrecognised word halts the core with its address and raw nibbles and changes nothing else; it is never a no-op
(R44, R91, R92; the pc in the record: D33; halting: D22). -/
def Obligations.UnknownWordHaltsWithNibbles : Prop :=
  ∀ (s : State) (w : Nibbles), s.status = .running → s.pc.toNat ≤ 0xFFE →
    decode (readByte s.pc.toNat s) (readByte (s.pc.toNat + 1) s) = .error w →
    readByte s.pc.toNat s = w.a ++ w.b ∧ readByte (s.pc.toNat + 1) s = w.c ++ w.d ∧
    step s = .next { s with status := .halted ⟨.decodeError w.a w.b w.c w.d, s.pc⟩ }

/-- Every step of every state answers a next state: no state is stuck, no instruction is refused. That an error is taken as
a next state is the model's reading of R92 (log entry 8, DEDUCED), and that it halts the core and a halted core has an
iteration that does nothing are the spec's own choices (D22, D23). -/
def Obligations.EveryStepAnswersNext : Prop :=
  ∀ s : State, ∃ t, step s = .next t

/-- Errors are precise: a step that halts the core changes the status and nothing else, requests and inputs included, and
its record holds the pc of the instruction (R91, R92; D22). -/
def Obligations.ErrorsArePrecise : Prop :=
  ∀ (s t : State) (r : ErrorRecord), s.isHalted = false → step s = .next t → t.status = .halted r →
    s.status = .running ∧ t = { s with status := .halted r } ∧ r.pc = s.pc

/-- A halted core stays as it is, whatever number of iterations follows (R94, R99; D23). -/
def Obligations.HaltedChangesNothing : Prop :=
  ∀ (n : Nat) (s : State) (r : ErrorRecord), s.status = .halted r → Sys2Proof.core.run n s = .next s

/-- The key wait is entered only by LD Vx, K, and only a running core halts (R25; D23). -/
def Obligations.StatusIsEnteredAsStated : Prop :=
  ∀ (s t : State), step s = .next t →
    (∀ x, t.status = .awaitingKey x → s.status = .awaitingKey x ∨ (s.status = .running ∧ s.InstrAtPc (.ldVxK x))) ∧
    (∀ r, t.status = .halted r → s.status = .halted r ∨ s.status = .running) ∧
    (t.status = .running → s.status = .running ∨ ∃ x, s.status = .awaitingKey x)

/-- The invariant holds at reset, for all parameters in the ranges of R9. -/
def Obligations.InvHoldsAtReset : Prop :=
  (∀ c : Config, c.wf = true → (State.resetFor c).Inv) ∧ State.reset.Inv

/-- Every step keeps the invariant, and the machine's parameters (R9, R21, R22, R23, R51, R82, R91). -/
def Obligations.StepKeepsInv : Prop :=
  ∀ s t : State, s.Inv → step s = .next t → t.Inv ∧ t.cfg = s.cfg

/-- The record of requests is an output: a step goes on alike whatever it holds and only adds to its end (the model's own
field, log entry 6). -/
def Obligations.RequestRecordIsNeverRead : Prop :=
  ∀ (s t : State) (earlier : List Request), step s = .next t →
    step { s with requests := earlier ++ s.requests } = .next { t with requests := earlier ++ t.requests }

/-- A program at rest stays at rest: every further iteration changes only the timers (and uses the host's elapsed time)
(R117, D34). -/
def Obligations.SelfJumpIsAtRest : Prop :=
  ∀ (n : Nat) (s : State), s.AtRest →
    ∃ t, Sys2Proof.core.run n s = .next t ∧ t.AtRest ∧ t.pc = s.pc ∧ SameBut [.timers, .ports] s t ∧
      t.requests = s.requests ∧ t.inputs = { s.inputs with elapsed := s.inputs.elapsed.drop n }

/-! ## Timers -/

/-- The timer advance, exact: both counters lose one per period of 1/60 s crossed and stop at zero, the rest is carried
in the phase (R97, R98; the unit and the exactness: D24). -/
def Obligations.TimerAdvanceIsExact : Prop :=
  ∀ (e : Nat) (s : State),
    let t := timerAdvance e s
    let ticks := (s.phase + 60 * e) / 1000000000
    t.dt.toNat = s.dt.toNat - ticks ∧ t.st.toNat = s.st.toNat - ticks ∧
    ticks * 1000000000 + t.phase = s.phase + 60 * e ∧ t.phase < 1000000000 ∧
    t.pc = s.pc ∧ SameBut [.timers] s t

/-- "Two advances of e1 and e2 nanoseconds have the same effect as one advance of e1 + e2" (R97; D24). -/
def Obligations.TimerAdvancesAdd : Prop :=
  ∀ (e₁ e₂ : Nat) (s : State), timerAdvance e₂ (timerAdvance e₁ s) = timerAdvance (e₁ + e₂) s

/-- 1000 calls of one millisecond decrement a counter by exactly 60, saturating at zero, and leave the phase (R97 and S9 of
spec/95_test_vectors.md; D24). -/
def Obligations.ThousandMillisecondsAreSixtyTicks : Prop :=
  ∀ s : State, s.phase < 1000000000 →
    let t := (timerAdvance 1000000)^[1000] s
    t.dt.toNat = s.dt.toNat - 60 ∧ t.st.toNat = s.st.toNat - 60 ∧ t.phase = s.phase

/-- No advance runs in an iteration that ends Halted nor later; the timers run in the key wait (R99). That the iterations
after it leave the whole state is the model's reading (log entry 8, DEDUCED) and the spec's own choice (D23). -/
def Obligations.TimersStopOnlyOnHalt : Prop :=
  (∀ s t : State, step s = .next t → t.isHalted = true →
    t.dt = s.dt ∧ t.st = s.st ∧ t.phase = s.phase ∧ ∀ n, Sys2Proof.core.run n t = .next t) ∧
  (∀ (s : State) (x : RegId), s.status = .awaitingKey x →
    ∃ (t : State) (e : Nat), step s = .next t ∧
      (∀ e₀ rest, s.inputs.elapsed = e₀ :: rest → e = e₀) ∧
      t.dt = (timerAdvance e s).dt ∧ t.st = (timerAdvance e s).st ∧ t.phase = (timerAdvance e s).phase)

/-- LD Vx, DT copies the delay counter. -/
def Obligations.LdVxDtCopiesDelayCounter : Prop :=
  ∀ (x : RegId) (s : State),
    decodeWord (0xF#4 ++ x ++ 0x07#8) = .ok (.ldVxDt x) ∧
    ∃ t, exec (.ldVxDt x) s = .next t ∧ t.pc = s.pc + 2 ∧ SameBut [.regs] s t ∧
      ∀ r, readReg r t = if r = x then s.dt else readReg r s

/-- LD DT, Vx and LD ST, Vx set their own counter; the other counter and the phase stay (R78, R79; the phase: D25); the tone
is on exactly when the new ST is not 0 (R100; D27). -/
def Obligations.LdDtAndLdStSetOneCounter : Prop :=
  ∀ (x : RegId) (s : State),
    (decodeWord (0xF#4 ++ x ++ 0x15#8) = .ok (.ldDtVx x) ∧
      ∃ t, exec (.ldDtVx x) s = .next t ∧ t.pc = s.pc + 2 ∧ SameBut [.timers] s t ∧
        t.dt = readReg x s ∧ t.st = s.st ∧ t.phase = s.phase) ∧
    (decodeWord (0xF#4 ++ x ++ 0x18#8) = .ok (.ldStVx x) ∧
      ∃ t, exec (.ldStVx x) s = .next t ∧ t.pc = s.pc + 2 ∧ SameBut [.timers] s t ∧
        t.st = readReg x s ∧ t.dt = s.dt ∧ t.phase = s.phase ∧ (toneOn t = true ↔ readReg x s ≠ 0))

/-! ## Registers and the ALU -/

/-- LD Vx, kk and LD Vx, Vy: only Vx changes; no flag. -/
def Obligations.LdVxLoadsImmediateOrRegister : Prop :=
  ∀ (x y : RegId) (kk : Byte) (s : State),
    (decodeWord (0x6#4 ++ x ++ kk) = .ok (.ldVxKk x kk) ∧
      ∃ t, exec (.ldVxKk x kk) s = .next t ∧ t.pc = s.pc + 2 ∧ SameBut [.regs] s t ∧
        ∀ r, readReg r t = if r = x then kk else readReg r s) ∧
    (decodeWord (0x8#4 ++ x ++ y ++ 0x0#4) = .ok (.ldVxVy x y) ∧
      ∃ t, exec (.ldVxVy x y) s = .next t ∧ t.pc = s.pc + 2 ∧ SameBut [.regs] s t ∧
        ∀ r, readReg r t = if r = x then readReg y s else readReg r s)

/-- ADD Vx, kk wraps modulo 256 and writes no flag: only Vx changes (R63; VF unchanged: D12). -/
def Obligations.AddVxKkWrapsWithoutFlag : Prop :=
  ∀ (x : RegId) (kk : Byte) (s : State),
    decodeWord (0x7#4 ++ x ++ kk) = .ok (.addVxKk x kk) ∧
    ∃ t, exec (.addVxKk x kk) s = .next t ∧ t.pc = s.pc + 2 ∧ SameBut [.regs] s t ∧
      ∀ r, (readReg r t).toNat = if r = x then ((readReg x s).toNat + kk.toNat) % 256 else (readReg r s).toNat

/-- OR, AND and XOR, bit by bit; only Vx changes, VF is not cleared (R66, R67, R68; D11). -/
def Obligations.LogicIsBitwiseAndKeepsVF : Prop :=
  ∀ (x y : RegId) (s : State),
    (decodeWord (0x8#4 ++ x ++ y ++ 0x1#4) = .ok (.orVxVy x y) ∧
      ∃ t, exec (.orVxVy x y) s = .next t ∧ t.pc = s.pc + 2 ∧ SameBut [.regs] s t ∧
        ∀ r, if r = x then ∀ k, (readReg x t).getLsbD k = ((readReg x s).getLsbD k || (readReg y s).getLsbD k)
          else readReg r t = readReg r s) ∧
    (decodeWord (0x8#4 ++ x ++ y ++ 0x2#4) = .ok (.andVxVy x y) ∧
      ∃ t, exec (.andVxVy x y) s = .next t ∧ t.pc = s.pc + 2 ∧ SameBut [.regs] s t ∧
        ∀ r, if r = x then ∀ k, (readReg x t).getLsbD k = ((readReg x s).getLsbD k && (readReg y s).getLsbD k)
          else readReg r t = readReg r s) ∧
    (decodeWord (0x8#4 ++ x ++ y ++ 0x3#4) = .ok (.xorVxVy x y) ∧
      ∃ t, exec (.xorVxVy x y) s = .next t ∧ t.pc = s.pc + 2 ∧ SameBut [.regs] s t ∧
        ∀ r, if r = x then ∀ k, (readReg x t).getLsbD k = ((readReg x s).getLsbD k ^^ (readReg y s).getLsbD k)
          else readReg r t = readReg r s)

/-- ADD Vx, Vy: the sum modulo 256 in Vx, its carry in VF (R69); with x = F VF ends as the carry (D10, log entry 15). -/
def Obligations.AddVxVyWrapsAndSetsCarry : Prop :=
  ∀ (x y : RegId) (s : State),
    let p := (readReg x s).toNat
    let q := (readReg y s).toNat
    decodeWord (0x8#4 ++ x ++ y ++ 0x4#4) = .ok (.addVxVy x y) ∧
    ∃ t, exec (.addVxVy x y) s = .next t ∧ t.pc = s.pc + 2 ∧ SameBut [.regs] s t ∧
      ∀ r, (readReg r t).toNat =
        if r = 0xF#4 then (if p + q > 0xFF then 1 else 0)
        else if r = x then (p + q) % 256 else (readReg r s).toNat

/-- SUB and SUBN: the difference modulo 256 in Vx, VF 1 exactly when no borrow occurred (R70, R72); with x = F VF ends as
the flag (D10, log entry 15). -/
def Obligations.SubtractWrapsAndSetsNoBorrow : Prop :=
  ∀ (x y : RegId) (s : State),
    let p := (readReg x s).toNat
    let q := (readReg y s).toNat
    (decodeWord (0x8#4 ++ x ++ y ++ 0x5#4) = .ok (.sub x y) ∧
      ∃ t, exec (.sub x y) s = .next t ∧ t.pc = s.pc + 2 ∧ SameBut [.regs] s t ∧
        ∀ r, (readReg r t).toNat =
          if r = 0xF#4 then (if p ≥ q then 1 else 0)
          else if r = x then (if p ≥ q then p - q else p + 256 - q) else (readReg r s).toNat) ∧
    (decodeWord (0x8#4 ++ x ++ y ++ 0x7#4) = .ok (.subn x y) ∧
      ∃ t, exec (.subn x y) s = .next t ∧ t.pc = s.pc + 2 ∧ SameBut [.regs] s t ∧
        ∀ r, (readReg r t).toNat =
          if r = 0xF#4 then (if q ≥ p then 1 else 0)
          else if r = x then (if q ≥ p then q - p else q + 256 - p) else (readReg r s).toNat)

/-- SHR and SHL for both values of `shiftReadsVy` (D9, log entry 16): Vx the operand shifted one bit with 0 moved in, VF the
bit moved out (R71, R73); with x = F VF ends as that bit (D10, log entry 15). -/
def Obligations.ShiftsMoveOneBitIntoVF : Prop :=
  ∀ (x y : RegId) (s : State),
    let b := if s.cfg.shiftReadsVy then (readReg y s).toNat else (readReg x s).toNat
    (decodeWord (0x8#4 ++ x ++ y ++ 0x6#4) = .ok (.shr x y) ∧
      ∃ t, exec (.shr x y) s = .next t ∧ t.pc = s.pc + 2 ∧ SameBut [.regs] s t ∧
        ∀ r, (readReg r t).toNat =
          if r = 0xF#4 then b % 2 else if r = x then b / 2 else (readReg r s).toNat) ∧
    (decodeWord (0x8#4 ++ x ++ y ++ 0xE#4) = .ok (.shl x y) ∧
      ∃ t, exec (.shl x y) s = .next t ∧ t.pc = s.pc + 2 ∧ SameBut [.regs] s t ∧
        ∀ r, (readReg r t).toNat =
          if r = 0xF#4 then b / 128 else if r = x then b * 2 % 256 else (readReg r s).toNat)

/-! ## Skips and control transfer -/

/-- The four skips on register values: pc + 4 when the condition holds, pc + 2 otherwise, nothing else. -/
def Obligations.RegisterSkipsSelectPc : Prop :=
  ∀ (x y : RegId) (kk : Byte) (s : State),
    (decodeWord (0x3#4 ++ x ++ kk) = .ok (.seVxKk x kk) ∧
      ∃ t, exec (.seVxKk x kk) s = .next t ∧ SameBut [] s t ∧
        t.pc = if readReg x s = kk then s.pc + 4 else s.pc + 2) ∧
    (decodeWord (0x4#4 ++ x ++ kk) = .ok (.sneVxKk x kk) ∧
      ∃ t, exec (.sneVxKk x kk) s = .next t ∧ SameBut [] s t ∧
        t.pc = if readReg x s = kk then s.pc + 2 else s.pc + 4) ∧
    (decodeWord (0x5#4 ++ x ++ y ++ 0x0#4) = .ok (.seVxVy x y) ∧
      ∃ t, exec (.seVxVy x y) s = .next t ∧ SameBut [] s t ∧
        t.pc = if readReg x s = readReg y s then s.pc + 4 else s.pc + 2) ∧
    (decodeWord (0x9#4 ++ x ++ y ++ 0x0#4) = .ok (.sneVxVy x y) ∧
      ∃ t, exec (.sneVxVy x y) s = .next t ∧ SameBut [] s t ∧
        t.pc = if readReg x s = readReg y s then s.pc + 2 else s.pc + 4)

/-- JP nnn sets the pc to nnn and changes nothing else. -/
def Obligations.JpSetsPc : Prop :=
  ∀ (nnn : Addr) (s : State),
    decodeWord (0x1#4 ++ nnn) = .ok (.jp nnn) ∧
    ∃ t, exec (.jp nnn) s = .next t ∧ SameBut [] s t ∧ t.pc.toNat = nnn.toNat

/-- JP V0, nnn: the exact sum of nnn and V0, whatever the word's nibble b (R56; the register: D13, no wrap: D2). -/
def Obligations.JpV0AddsV0 : Prop :=
  ∀ (nnn : Addr) (s : State),
    decodeWord (0xB#4 ++ nnn) = .ok (.jpV0 nnn) ∧
    ∃ t, exec (.jpV0 nnn) s = .next t ∧ SameBut [] s t ∧ t.pc.toNat = nnn.toNat + (readReg 0x0#4 s).toNat

/-- SYS halts with UnsupportedSys under `sysPolicy = fault` and only advances the pc under `nop`; SYS has every word 0nnn but
two (R52; the policy: D8). -/
def Obligations.SysFollowsItsPolicy : Prop :=
  ∀ (nnn : Addr) (s : State),
    (nnn ≠ 0x0E0#12 → nnn ≠ 0x0EE#12 → decodeWord (0x0#4 ++ nnn) = .ok (.sys nnn)) ∧
    (s.cfg.sysPolicy = .fault →
      exec (.sys nnn) s = .next { s with status := .halted ⟨.unsupportedSys nnn, s.pc⟩ }) ∧
    (s.cfg.sysPolicy = .nop →
      ∃ t, exec (.sys nnn) s = .next t ∧ SameBut [] s t ∧ t.pc = s.pc + 2)

/-- CALL pushes the return address and jumps; StackOverflow on a full stack comes first, then OutOfBoundsAccess for a return
address above 0xFFF (R54, R22; D28, D31). -/
def Obligations.CallPushesReturnAddress : Prop :=
  ∀ (nnn : Addr) (s : State), s.stack.length = s.cfg.stackDepth →
    decodeWord (0x2#4 ++ nnn) = .ok (.call nnn) ∧
    (s.sp = s.cfg.stackDepth →
      exec (.call nnn) s = .next { s with status := .halted ⟨.stackOverflow, s.pc⟩ }) ∧
    (s.sp < s.cfg.stackDepth → s.pc = 0xFFE#16 →
      exec (.call nnn) s = .next { s with status := .halted ⟨.outOfBoundsAccess 0x1000#16, s.pc⟩ }) ∧
    (s.sp < s.cfg.stackDepth → s.pc.toNat < 0xFFE →
      ∃ t, exec (.call nnn) s = .next t ∧ SameBut [.stack] s t ∧ t.pc.toNat = nnn.toNat ∧ t.sp = s.sp + 1 ∧
        (t.stack[s.sp]?).map BitVec.toNat = some (s.pc.toNat + 2) ∧
        ∀ j, j ≠ s.sp → t.stack[j]? = s.stack[j]?)

/-- RET pops an entry and jumps there, or halts with StackUnderflow on an empty stack (R55, R22; halting: D22). -/
def Obligations.RetPopsOrUnderflows : Prop :=
  decodeWord 0x00EE#16 = .ok .ret ∧
  ∀ s : State,
    (s.sp = 0 → exec .ret s = .next { s with status := .halted ⟨.stackUnderflow, s.pc⟩ }) ∧
    (∀ (n : Nat) (target : Addr), s.sp = n + 1 → s.stack[n]? = some target →
      ∃ t, exec .ret s = .next t ∧ SameBut [.stack] s t ∧ t.pc.toNat = target.toNat ∧ t.sp = n ∧
        t.stack = s.stack)

/-- "a call followed by a return restores the program counter to exactly the instruction after the original call", whatever
ran between, so long as it left the stack as the call did (R54, R55; a call that pushes: D31). -/
def Obligations.ReturnComesBackAfterTheCall : Prop :=
  ∀ (nnn : Addr) (s t u : State), s.stack.length = s.cfg.stackDepth → s.sp < s.cfg.stackDepth → s.pc.toNat < 0xFFE →
    exec (.call nnn) s = .next t → u.sp = t.sp → u.stack = t.stack →
    ∃ w, exec .ret u = .next w ∧ w.pc = s.pc + 2 ∧ w.sp = s.sp

/-! ## The address register -/

/-- LD I, nnn writes I and nothing else. -/
def Obligations.LdISetsI : Prop :=
  ∀ (nnn : Addr) (s : State),
    decodeWord (0xA#4 ++ nnn) = .ok (.ldINnn nnn) ∧
    ∃ t, exec (.ldINnn nnn) s = .next t ∧ t.pc = s.pc + 2 ∧ SameBut [.index] s t ∧ t.i = nnn

/-- ADD I, Vx adds exactly while the sum fits 12 bits, VF is not written; beyond, Unspecified halts the core (R75; D14). -/
def Obligations.AddIAddsOrHalts : Prop :=
  ∀ (x : RegId) (s : State),
    decodeWord (0xF#4 ++ x ++ 0x1E#8) = .ok (.addIVx x) ∧
    (s.i.toNat + (readReg x s).toNat ≤ 0xFFF →
      ∃ t, exec (.addIVx x) s = .next t ∧ t.pc = s.pc + 2 ∧ SameBut [.index] s t ∧
        t.i.toNat = s.i.toNat + (readReg x s).toNat) ∧
    (s.i.toNat + (readReg x s).toNat > 0xFFF →
      exec (.addIVx x) s = .next { s with status := .halted ⟨.unspecified .addIBeyond, s.pc⟩ })

/-- LD F, Vx points I at the glyph of the digit in Vx, and at reset the five bytes there are that digit's of the glyph
table; a value above 0xF halts with Unspecified (R76, R33; D6, D15). -/
def Obligations.LdFPointsAtTheDigitsGlyph : Prop :=
  ∀ (x : RegId) (s : State), s.cfg.wf = true →
    decodeWord (0xF#4 ++ x ++ 0x29#8) = .ok (.ldFVx x) ∧
    ((readReg x s).toNat ≤ 0xF →
      ∃ t, exec (.ldFVx x) s = .next t ∧ t.pc = s.pc + 2 ∧ SameBut [.index] s t ∧
        t.i.toNat = s.cfg.fontBase.toNat + 5 * (readReg x s).toNat ∧
        ∀ j, j < 5 → some (readByte (t.i.toNat + j) (State.resetFor s.cfg)) =
          s.cfg.fontGlyphs[5 * (readReg x s).toNat + j]?) ∧
    ((readReg x s).toNat > 0xF →
      exec (.ldFVx x) s = .next { s with status := .halted ⟨.unspecified .digitAboveF, s.pc⟩ })

/-! ## Input and the random value -/

/-- SKP and SKNP skip on the input collaborator's answer, whatever it is; the query carries the full Vx (R80, R81; D19). -/
def Obligations.KeySkipsFollowTheAnswer : Prop :=
  ∀ (x : RegId) (s : State), ∃ pressed : Bool,
    (∀ p rest, s.inputs.keyPressed = p :: rest → pressed = p) ∧
    (decodeWord (0xE#4 ++ x ++ 0x9E#8) = .ok (.skp x) ∧
      ∃ t, exec (.skp x) s = .next t ∧ SameBut [.ports] s t ∧
        t.pc = (if pressed then s.pc + 4 else s.pc + 2) ∧
        t.requests = s.requests ++ [.keyPressed (readReg x s)] ∧
        t.inputs = { s.inputs with keyPressed := s.inputs.keyPressed.tail }) ∧
    (decodeWord (0xE#4 ++ x ++ 0xA1#8) = .ok (.sknp x) ∧
      ∃ t, exec (.sknp x) s = .next t ∧ SameBut [.ports] s t ∧
        t.pc = (if pressed then s.pc + 2 else s.pc + 4) ∧
        t.requests = s.requests ++ [.keyPressed (readReg x s)] ∧
        t.inputs = { s.inputs with keyPressed := s.inputs.keyPressed.tail })

/-- LD Vx, K suspends the core: the status is AwaitingKey(x), pc and registers stay. In that status no instruction is
fetched: a step is the same whatever memory holds (R82; the status and the pc that stays: D20). -/
def Obligations.LdVxKSuspends : Prop :=
  ∀ (x : RegId) (s : State),
    decodeWord (0xF#4 ++ x ++ 0x0A#8) = .ok (.ldVxK x) ∧
    (∃ t, exec (.ldVxK x) s = .next t ∧ SameBut [.status] s t ∧ t.pc = s.pc ∧ t.status = .awaitingKey x) ∧
    ∀ (u t : State) (m : Memory), u.status = .awaitingKey x → step u = .next t →
      step { u with mem := m } = .next { t with mem := m }

/-- The key wait: each iteration asks once; no key leaves the core waiting, a key goes to Vx, the pc advances and the core
runs; the timers advance either way (R83, R24; D20, D26). -/
def Obligations.KeyWaitEndsOnAKey : Prop :=
  ∀ (x : RegId) (s : State), s.status = .awaitingKey x →
    ∃ (answer : Option Nibble) (t : State), step s = .next t ∧
      (∀ a rest, s.inputs.keyEvent = a :: rest → answer = a) ∧
      t.requests = s.requests ++ [.keyEvent] ∧
      t.inputs = { s.inputs with keyEvent := s.inputs.keyEvent.tail, elapsed := s.inputs.elapsed.tail } ∧
      match answer with
      | none => SameBut [.ports, .timers] s t ∧ t.pc = s.pc
      | some k => SameBut [.regs, .status, .ports, .timers] s t ∧ t.pc = s.pc + 2 ∧ t.status = .running ∧
          ∀ r, (readReg r t).toNat = if r = x then k.toNat else (readReg r s).toNat

/-- RND: the collaborator's byte, whatever it is, masked by kk (R84; D21). -/
def Obligations.RndMasksTheRandomByte : Prop :=
  ∀ (x : RegId) (kk : Byte) (s : State),
    decodeWord (0xC#4 ++ x ++ kk) = .ok (.rnd x kk) ∧
    ∃ (b : Byte) (t : State), (∀ b₀ rest, s.inputs.randomByte = b₀ :: rest → b = b₀) ∧
      exec (.rnd x kk) s = .next t ∧ t.pc = s.pc + 2 ∧ SameBut [.regs, .ports] s t ∧
      t.requests = s.requests ++ [.randomByte] ∧
      t.inputs = { s.inputs with randomByte := s.inputs.randomByte.tail } ∧
      ∀ r, if r = x then ∀ k, (readReg x t).getLsbD k = (b.getLsbD k && kk.getLsbD k)
        else readReg r t = readReg r s

/-! ## Display and memory -/

/-- CLS issues one clear request and changes no core state except pc. -/
def Obligations.ClsIssuesOneClearRequest : Prop :=
  decodeWord 0x00E0#16 = .ok .cls ∧
  ∀ s : State, ∃ t, exec .cls s = .next t ∧ t.pc = s.pc + 2 ∧ SameBut [.ports] s t ∧
    t.requests = s.requests ++ [.displayClear] ∧ t.inputs = s.inputs ∧ t.draws = s.draws

/-- DRW sends Vx, Vy and the n bytes at I, and VF takes the display's answer, whatever it is; bytes beyond memory halt the
core and no request is issued (R86; n = 0 and the answer: D18). -/
def Obligations.DrwSendsRowsAndRecordsCollision : Prop :=
  ∀ (x y : RegId) (n : Nibble) (s : State),
    decodeWord (0xD#4 ++ x ++ y ++ n) = .ok (.drw x y n) ∧
    (s.i.toNat + n.toNat ≤ 0x1000 →
      ∃ (collision : Bool) (t : State), (∀ c rest, s.inputs.collision = c :: rest → collision = c) ∧
        exec (.drw x y n) s = .next t ∧ t.pc = s.pc + 2 ∧ SameBut [.regs, .ports] s t ∧
        t.requests = s.requests ++
          [.displayDraw (readReg x s) (readReg y s) ((List.range n.toNat).map fun j => readByte (s.i.toNat + j) s)] ∧
        t.inputs = { s.inputs with collision := s.inputs.collision.tail } ∧
        ∀ r, readReg r t = if r = 0xF#4 then (if collision then 1 else 0) else readReg r s) ∧
    (s.i.toNat + n.toNat > 0x1000 →
      exec (.drw x y n) s = .next { s with status := .halted ⟨.outOfBoundsAccess 0x1000#16, s.pc⟩ })

/-- LD B, Vx stores three decimal digits, hundreds at I; nothing else changes, I included; beyond memory nothing is stored
and the core halts (R87; the order: D16). -/
def Obligations.LdBStoresDecimalDigits : Prop :=
  ∀ (x : RegId) (s : State), Memory.wf s.cfg s.mem = true →
    decodeWord (0xF#4 ++ x ++ 0x33#8) = .ok (.ldBVx x) ∧
    (s.i.toNat ≤ 0xFFD →
      ∃ t, exec (.ldBVx x) s = .next t ∧ t.pc = s.pc + 2 ∧ SameBut [.memory] s t ∧
        (∃ h d o : Nat, h ≤ 2 ∧ d ≤ 9 ∧ o ≤ 9 ∧ 100 * h + 10 * d + o = (readReg x s).toNat ∧
          (readByte s.i.toNat t).toNat = h ∧ (readByte (s.i.toNat + 1) t).toNat = d ∧
          (readByte (s.i.toNat + 2) t).toNat = o) ∧
        ∀ a, a < s.i.toNat ∨ s.i.toNat + 3 ≤ a → readByte a t = readByte a s) ∧
    (s.i.toNat > 0xFFD →
      exec (.ldBVx x) s = .next { s with status := .halted ⟨.outOfBoundsAccess 0x1000#16, s.pc⟩ })

/-- LD [I], Vx stores V0..Vx at I .. I + x and changes nothing else, I included; beyond memory nothing is stored and the
core halts (R88; the range: D17). -/
def Obligations.LdIVxStoresTheRegisterBlock : Prop :=
  ∀ (x : RegId) (s : State), Memory.wf s.cfg s.mem = true →
    decodeWord (0xF#4 ++ x ++ 0x55#8) = .ok (.ldIVx x) ∧
    (s.i.toNat + x.toNat ≤ 0xFFF →
      ∃ t, exec (.ldIVx x) s = .next t ∧ t.pc = s.pc + 2 ∧ SameBut [.memory] s t ∧
        (∀ r : RegId, r.toNat ≤ x.toNat → readByte (s.i.toNat + r.toNat) t = readReg r s) ∧
        ∀ a, a < s.i.toNat ∨ s.i.toNat + x.toNat < a → readByte a t = readByte a s) ∧
    (s.i.toNat + x.toNat > 0xFFF →
      exec (.ldIVx x) s = .next { s with status := .halted ⟨.outOfBoundsAccess 0x1000#16, s.pc⟩ })

/-- LD Vx, [I] loads V0..Vx from I .. I + x and changes nothing else, I included; beyond memory no register is written and
the core halts (R89; the range: D17). -/
def Obligations.LdVxILoadsTheRegisterBlock : Prop :=
  ∀ (x : RegId) (s : State),
    decodeWord (0xF#4 ++ x ++ 0x65#8) = .ok (.ldVxI x) ∧
    (s.i.toNat + x.toNat ≤ 0xFFF →
      ∃ t, exec (.ldVxI x) s = .next t ∧ t.pc = s.pc + 2 ∧ SameBut [.regs] s t ∧
        ∀ r : RegId, readReg r t = if r.toNat ≤ x.toNat then readByte (s.i.toNat + r.toNat) s else readReg r s) ∧
    (s.i.toNat + x.toNat > 0xFFF →
      exec (.ldVxI x) s = .next { s with status := .halted ⟨.outOfBoundsAccess 0x1000#16, s.pc⟩ })

/-- MemRead gives the n bytes in ascending order, or raises with the lowest address beyond memory, which halts with the
instruction's pc in the record (R30, R91; halting: D22). -/
def Obligations.MemReadChecksBeforeItReads : Prop :=
  ∀ (addr : Word) (n : Nat) (s : State), n ≤ 16 →
    ((n = 0 ∨ addr.toNat + n ≤ 0x1000) →
      memRead addr.toNat n s = .ok ((List.range n).map fun j => readByte (addr.toNat + j) s)) ∧
    (∀ j, j < n → addr.toNat + j > 0xFFF → (∀ k, k < j → addr.toNat + k ≤ 0xFFF) →
      memRead addr.toNat n s = .error (.outOfBoundsAccess (addr + BitVec.ofNat 16 j)) ∧
      (takeError (.outOfBoundsAccess (addr + BitVec.ofNat 16 j)) s).status =
        .halted ⟨.outOfBoundsAccess (addr + BitVec.ofNat 16 j), s.pc⟩)

/-- MemWrite puts the bytes at ascending addresses and touches no other, or raises before it writes any, which halts with
the instruction's pc in the record (R31, R91; halting: D22). -/
def Obligations.MemWriteChecksBeforeItWrites : Prop :=
  ∀ (addr : Addr) (bytes : List Byte) (s : State), Memory.wf s.cfg s.mem = true →
    (addr.toNat + bytes.length ≤ 0x1000 →
      ∃ t, memWrite addr.toNat bytes s = .ok t ∧ t.pc = s.pc ∧ SameBut [.memory] s t ∧
        Memory.wf t.cfg t.mem = true ∧
        (∀ j b, bytes[j]? = some b → readByte (addr.toNat + j) t = b) ∧
        ∀ a, a < addr.toNat ∨ addr.toNat + bytes.length ≤ a → readByte a t = readByte a s) ∧
    (addr.toNat + bytes.length > 0x1000 →
      memWrite addr.toNat bytes s = .error (.outOfBoundsAccess 0x1000#16) ∧
      (takeError (.outOfBoundsAccess 0x1000#16) s).status = .halted ⟨.outOfBoundsAccess 0x1000#16, s.pc⟩)

/-- The canonical form is canonical: two memories of it that read alike are the same list (the model's own form). -/
def Obligations.EqualReadsAreEqualMemories : Prop :=
  ∀ (c : Config) (m m' : Memory), Memory.wf c m = true → Memory.wf c m' = true →
    (∀ a, Memory.read c m a = Memory.read c m' a) → m = m'

/-- A store is seen by the very next fetch: when LD [I], Vx overwrites the word after it, the next step runs the word it
stored (R38, R113). -/
def Obligations.StoreIsSeenByTheNextFetch : Prop :=
  ∀ (x : RegId) (s : State) (i : Instr), Memory.wf s.cfg s.mem = true → s.status = .running →
    s.InstrAtPc (.ldIVx x) → 1 ≤ x.toNat → s.i.toNat = s.pc.toNat + 2 → s.i.toNat + x.toNat ≤ 0xFFF →
    decode (readReg 0x0#4 s) (readReg 0x1#4 s) = .ok i →
    ∃ t, step s = .next t ∧ t.status = .running ∧ t.pc = s.pc + 2 ∧ t.InstrAtPc i

/-! ## The whole machine -/

/-- Each piece of state is written only by its own instructions: I by LD I, ADD I and LD F (R19); sp and the stack by CALL
and RET (R21); DT by LD DT, ST by LD ST, phase by none (R23); memory by LD B and LD [I] (R36); requests by CLS, DRW, SKP,
SKNP and RND (R27). -/
def Obligations.EachPieceHasItsOwnWriters : Prop :=
  ∀ (i : Instr) (s t : State), exec i s = .next t →
    (t.i ≠ s.i → (∃ nnn, i = .ldINnn nnn) ∨ (∃ x, i = .addIVx x) ∨ ∃ x, i = .ldFVx x) ∧
    ((t.sp ≠ s.sp ∨ t.stack ≠ s.stack) → (∃ nnn, i = .call nnn) ∨ i = .ret) ∧
    (t.dt ≠ s.dt → ∃ x, i = .ldDtVx x) ∧ (t.st ≠ s.st → ∃ x, i = .ldStVx x) ∧ t.phase = s.phase ∧
    (t.mem ≠ s.mem → (∃ x, i = .ldBVx x) ∨ ∃ x, i = .ldIVx x) ∧
    (t.requests ≠ s.requests → i = .cls ∨ (∃ x y n, i = .drw x y n) ∨ (∃ x, i = .skp x) ∨ (∃ x, i = .sknp x) ∨
      ∃ x kk, i = .rnd x kk)

/-- VF changes only by the six flag writers or by an instruction that names VF as its destination (R28, which the spec marks
as derived, and R18); that OR, AND, XOR, ADD Vx, kk and ADD I, Vx leave VF is its own choice (D11, D12, D14, log entry
15). -/
def Obligations.OnlyFlagWritersAndDestinationsChangeVF : Prop :=
  ∀ (i : Instr) (s t : State), exec i s = .next t → readReg 0xF#4 t ≠ readReg 0xF#4 s →
    (∃ x y, i = .addVxVy x y ∨ i = .sub x y ∨ i = .shr x y ∨ i = .subn x y ∨ i = .shl x y) ∨
    (∃ x y n, i = .drw x y n) ∨
    (∃ kk, i = .ldVxKk 0xF#4 kk ∨ i = .addVxKk 0xF#4 kk ∨ i = .rnd 0xF#4 kk) ∨
    (∃ y, i = .ldVxVy 0xF#4 y ∨ i = .orVxVy 0xF#4 y ∨ i = .andVxVy 0xF#4 y ∨ i = .xorVxVy 0xF#4 y) ∨
    i = .ldVxDt 0xF#4 ∨ i = .ldVxI 0xF#4

/-- `reset()` gives every piece of state its reset value, in any status (R108, R109; zero values: D5; low memory: D6). -/
def Obligations.ResetSetsEveryPieceOfState : Prop :=
  ∀ s : State,
    let t := hostReset s
    (∀ r, readReg r t = 0) ∧ t.i = 0 ∧ t.pc.toNat = 0x200 ∧ t.sp = 0 ∧
    t.stack.length = s.cfg.stackDepth ∧ (∀ a ∈ t.stack, a = 0) ∧
    t.dt = 0 ∧ t.st = 0 ∧ t.phase = 0 ∧ t.status = .running ∧ t.cfg = s.cfg ∧ t.requests = [] ∧
    (∀ j : Fin 80, readByte (s.cfg.fontBase.toNat + j) t = s.cfg.fontGlyphs[j]) ∧
    (∀ a, a < s.cfg.fontBase.toNat ∨ s.cfg.fontBase.toNat + 80 ≤ a → readByte a t = 0)

/-- `load(bytes)` puts an image that fits at 0x200 on and changes nothing else; a longer one is refused (R110; D30). -/
def Obligations.LoadPlacesTheImage : Prop :=
  ∀ (bytes : List Byte) (s : State), Memory.wf s.cfg s.mem = true →
    (bytes.length ≤ 3584 →
      ∃ t, hostLoad bytes s = .next t ∧ t.pc = s.pc ∧ SameBut [.memory] s t ∧ Memory.wf t.cfg t.mem = true ∧
        (∀ j b, bytes[j]? = some b → readByte (0x200 + j) t = b) ∧
        ∀ a, a < 0x200 ∨ 0x200 + bytes.length ≤ a → readByte a t = readByte a s) ∧
    (bytes.length > 3584 → hostLoad bytes s = .refused .imageTooLong)
end

