-- ==== Sys2Proof/Laws/Decode.lean ====
section
/-! SUPPORT. Fields of packed bytes and words, and packed fields of bytes: what the round trip of decoder and encoder rests
on, and the decoder on each word format of R41. -/

namespace Sys2Proof

/-! ### Fields of concatenated bit vectors -/

/-- A field inside the high part. -/
theorem extract_high {n m : Nat} (x : BitVec n) (y : BitVec m) (k len : Nat) :
    (x ++ y).extractLsb' (m + k) len = x.extractLsb' k len :=
  (BitVec.extractLsb'_append_eq_of_le (Nat.le_add_right m k)).trans (by rw [Nat.add_sub_cancel_left])

/-- The whole high part. -/
theorem extract_high_all {n m : Nat} (x : BitVec n) (y : BitVec m) : (x ++ y).extractLsb' m n = x :=
  (extract_high x y 0 n).trans BitVec.extractLsb'_eq_self

/-- A field inside the low part. -/
theorem extract_low {n m : Nat} (x : BitVec n) (y : BitVec m) {k len : Nat} (h : k + len ≤ m) :
    (x ++ y).extractLsb' k len = y.extractLsb' k len :=
  BitVec.extractLsb'_append_eq_of_add_le h

/-- The whole low part. -/
theorem extract_low_all {n m : Nat} (x : BitVec n) (y : BitVec m) : (x ++ y).extractLsb' 0 m = y :=
  (extract_low x y (Nat.le_of_eq (Nat.zero_add m))).trans BitVec.extractLsb'_eq_self

/-- A field of a field. -/
theorem extract_extract {w : Nat} (x : BitVec w) (i len k len' : Nat) (h : k + len' ≤ len) :
    (x.extractLsb' i len).extractLsb' k len' = x.extractLsb' (i + k) len' := by
  apply BitVec.eq_of_getLsbD_eq
  intro n hn
  simp only [BitVec.getLsbD_extractLsb', hn, show k + n < len by omega, decide_true, Bool.true_and, Nat.add_assoc]

/-! ### Nibbles of bytes and Addresses -/

@[simp] theorem hiNibble_append (p q : Nibble) : hiNibble (p ++ q) = p := extract_high_all p q

@[simp] theorem loNibble_append (p q : Nibble) : loNibble (p ++ q) = q := extract_low_all p q

@[simp] theorem hiNibble_packByte (p q : Nibble) : hiNibble (packByte p q) = p := extract_high_all p q

@[simp] theorem loNibble_packByte (p q : Nibble) : loNibble (packByte p q) = q := extract_low_all p q

@[simp] theorem packByte_nibbles (b : Byte) : packByte (hiNibble b) (loNibble b) = b :=
  (BitVec.extractLsb'_append_extractLsb'_eq_extractLsb' (x := b) (start₂ := 4) (start₁ := 0) (len₁ := 4) (len₂ := 4)
    rfl).trans BitVec.extractLsb'_eq_self

@[simp] theorem addrHi_packAddr (b c d : Nibble) : addrHi (packAddr b c d) = b :=
  (extract_high (b ++ c) d 4 4).trans (extract_high_all b c)

@[simp] theorem addrMid_packAddr (b c d : Nibble) : addrMid (packAddr b c d) = c :=
  (extract_high (b ++ c) d 0 4).trans (extract_low_all b c)

@[simp] theorem addrLo_packAddr (b c d : Nibble) : addrLo (packAddr b c d) = d := extract_low_all (b ++ c) d

@[simp] theorem packAddr_nibbles (a : Addr) : packAddr (addrHi a) (addrMid a) (addrLo a) = a := by
  have h₁ : (addrHi a ++ addrMid a : BitVec (4 + 4)) = a.extractLsb' 4 8 :=
    BitVec.extractLsb'_append_extractLsb'_eq_extractLsb' rfl
  have h₂ : (a.extractLsb' 4 8 ++ addrLo a : BitVec (8 + 4)) = a.extractLsb' 0 12 :=
    BitVec.extractLsb'_append_extractLsb'_eq_extractLsb' rfl
  exact (congrArg (fun p : BitVec 8 => (p ++ addrLo a : BitVec (8 + 4))) h₁).trans
    (h₂.trans BitVec.extractLsb'_eq_self)

/-- Addresses are equal exactly when their nibbles are. -/
theorem packAddr_eq_iff (b c d b' c' d' : Nibble) : packAddr b c d = packAddr b' c' d' ↔ b = b' ∧ c = c' ∧ d = d' := by
  constructor
  · intro h
    exact ⟨by simpa using congrArg addrHi h, by simpa using congrArg addrMid h, by simpa using congrArg addrLo h⟩
  · rintro ⟨rfl, rfl, rfl⟩; rfl

/-! ### The decoder on words -/

/-- The decoder on the packed nibbles of a word. -/
@[simp] theorem decode_packByte (a b c d : Nibble) : decode (packByte a b) (packByte c d) = decodeNibbles a b c d := by
  simp [decode]

/-- The decoder on a word by its four nibbles (R40). -/
theorem decodeWord_eq (w : Word) :
    decodeWord w = decodeNibbles (w.extractLsb' 12 4) (w.extractLsb' 8 4) (w.extractLsb' 4 4) (w.extractLsb' 0 4) := by
  simp [decodeWord, decode, hiNibble, loNibble, extract_extract]

/-- The sixteen nibbles. -/
theorem nibble_cases (a : Nibble) :
    a = 0x0#4 ∨ a = 0x1#4 ∨ a = 0x2#4 ∨ a = 0x3#4 ∨ a = 0x4#4 ∨ a = 0x5#4 ∨ a = 0x6#4 ∨ a = 0x7#4 ∨
    a = 0x8#4 ∨ a = 0x9#4 ∨ a = 0xA#4 ∨ a = 0xB#4 ∨ a = 0xC#4 ∨ a = 0xD#4 ∨ a = 0xE#4 ∨ a = 0xF#4 := by
  revert a; decide

/-- A decode failure carries the word's own nibbles (R44). -/
theorem decodeNibbles_error {a b c d : Nibble} {w : Nibbles} (h : decodeNibbles a b c d = .error w) :
    w = ⟨a, b, c, d⟩ := by
  rcases nibble_cases a with
    rfl | rfl | rfl | rfl | rfl | rfl | rfl | rfl | rfl | rfl | rfl | rfl | rfl | rfl | rfl | rfl
  all_goals simp [decodeNibbles, decodeFamily8, decodeFamilyE, decodeFamilyF] at h
  all_goals first
    | exact h.2.symm
    | (repeat (split at h; · cases h)
       cases h; rfl)

/-- Formats N and XY and XYN (R41): four nibbles. -/
theorem decodeWord_nibbles (a b c d : Nibble) : decodeWord (a ++ b ++ c ++ d) = decodeNibbles a b c d := by
  rw [decodeWord_eq]
  congr 1
  · exact (extract_high (a ++ b ++ c) d 8 4).trans ((extract_high (a ++ b) c 4 4).trans (extract_high_all a b))
  · exact (extract_high (a ++ b ++ c) d 4 4).trans ((extract_high (a ++ b) c 0 4).trans (extract_low_all a b))
  · exact (extract_high (a ++ b ++ c) d 0 4).trans (extract_low_all (a ++ b) c)
  · exact extract_low_all (a ++ b ++ c) d

/-- Formats XK and XS (R41): a family, a register and a byte. -/
theorem decodeWord_byte (a b : Nibble) (k : Byte) :
    decodeWord (a ++ b ++ k) = decodeNibbles a b (hiNibble k) (loNibble k) := by
  rw [decodeWord_eq]
  congr 1
  · exact (extract_high (a ++ b) k 4 4).trans (extract_high_all a b)
  · exact (extract_high (a ++ b) k 0 4).trans (extract_low_all a b)
  · exact extract_low (a ++ b) k (by omega)
  · exact extract_low (a ++ b) k (by omega)

/-- Format A (R41): a family and an Address. -/
theorem decodeWord_addr (a : Nibble) (nnn : Addr) :
    decodeWord (a ++ nnn) = decodeNibbles a (addrHi nnn) (addrMid nnn) (addrLo nnn) := by
  rw [decodeWord_eq]
  congr 1
  · exact extract_high_all a nnn
  · exact extract_low a nnn (by omega)
  · exact extract_low a nnn (by omega)
  · exact extract_low a nnn (by omega)

/-- A word's two bytes, put together again, decode as the word does. -/
theorem decodeWord_append (hi lo : Byte) : decodeWord (hi ++ lo) = decode hi lo := by
  have h₁ : (hi ++ lo : Word).extractLsb' 8 8 = hi := extract_high_all hi lo
  have h₂ : (hi ++ lo : Word).extractLsb' 0 8 = lo := extract_low_all hi lo
  rw [decodeWord, h₁, h₂]

end Sys2Proof
end

