-- ==== Sys2Proof/Laws/Memory.lean ====
section
/-! SUPPORT. The memory image: reads after writes, the canonical form kept by every write, and its uniqueness. -/

namespace Sys2Proof.Machine

variable {c : Config}

theorem Memory.wfFrom_cons {lo a : Nat} {b : Byte} {rest : Memory} :
    Memory.wfFrom c lo ((a, b) :: rest) = true ↔
      lo ≤ a ∧ a < memSize ∧ b ≠ resetByte c a ∧ Memory.wfFrom c (a + 1) rest = true := by
  simp [Memory.wfFrom, and_assoc]

/-- A canonical list from a higher address on is one from a lower. -/
theorem Memory.wfFrom_mono {lo lo' : Nat} {m : Memory} (h : Memory.wfFrom c lo m = true) (hle : lo' ≤ lo) :
    Memory.wfFrom c lo' m = true := by
  cases m with
  | nil => rfl
  | cons kv rest =>
    obtain ⟨k, v⟩ := kv
    rw [Memory.wfFrom_cons] at h ⊢
    exact ⟨hle.trans h.1, h.2⟩

/-- Below the first listed address memory reads as at reset. -/
theorem Memory.read_below {lo a : Nat} {m : Memory} (h : Memory.wfFrom c lo m = true) (ha : a < lo) :
    Memory.read c m a = resetByte c a := by
  cases m with
  | nil => rfl
  | cons kv rest =>
    obtain ⟨k, v⟩ := kv
    have hk := (Memory.wfFrom_cons.mp h).1
    simp only [Memory.read]
    rw [if_neg (by omega), if_pos (by omega)]

/-- After a write its address reads as the byte written, and every other address as before. -/
theorem Memory.read_write {lo : Nat} {m : Memory} (h : Memory.wfFrom c lo m = true) (a k : Nat) (b : Byte) :
    Memory.read c (Memory.write c m a b) k = if k = a then b else Memory.read c m k := by
  induction m generalizing lo with
  | nil => by_cases hk : k = a <;> by_cases hb : b = resetByte c a <;> simp [Memory.write, Memory.read, hk, hb]
  | cons kv rest ih =>
    obtain ⟨j, v⟩ := kv
    obtain ⟨-, -, -, hr⟩ := Memory.wfFrom_cons.mp h
    rcases Nat.lt_trichotomy a j with haj | rfl | haj
    · rcases Nat.lt_trichotomy k a with hka | rfl | hka
      · by_cases hb : b = resetByte c a <;>
          simp [Memory.write, Memory.read, haj, hb, hka, hka.ne, (hka.trans haj), (hka.trans haj).ne]
      · by_cases hb : b = resetByte c k <;> simp [Memory.write, Memory.read, haj, hb, haj.ne]
      · by_cases hb : b = resetByte c a <;>
          simp [Memory.write, Memory.read, haj, hb, hka.ne', Nat.not_lt.mpr hka.le]
    · by_cases hb : b = resetByte c a
      · rcases Nat.lt_trichotomy k a with hka | rfl | hka
        · simp [Memory.write, Memory.read, hb, hka, hka.ne, Memory.read_below hr (Nat.lt_succ_of_lt hka)]
        · simp [Memory.write, hb, Memory.read_below hr (Nat.lt_succ_self k)]
        · simp [Memory.write, Memory.read, hb, hka.ne', Nat.not_lt.mpr hka.le]
      · by_cases hk : k = a <;> simp [Memory.write, Memory.read, hb, hk]
    · have ha : ¬ a < j := Nat.not_lt.mpr haj.le
      by_cases hkj : k = j
      · subst hkj; simp [Memory.write, Memory.read, ha, haj.ne', haj.ne]
      · by_cases hlt : k < j
        · have hka : k ≠ a := (hlt.trans haj).ne
          simp [Memory.write, Memory.read, ha, haj.ne', hkj, hlt, hka]
        · simp [Memory.write, Memory.read, ha, haj.ne', hkj, hlt, ih hr]

/-- A write inside memory keeps the canonical form. -/
theorem Memory.wfFrom_write {lo : Nat} {m : Memory} (h : Memory.wfFrom c lo m = true) {a : Nat} (b : Byte)
    (hlo : lo ≤ a) (ha : a < memSize) : Memory.wfFrom c lo (Memory.write c m a b) = true := by
  induction m generalizing lo with
  | nil =>
    by_cases hb : b = resetByte c a
    · simp [Memory.write, Memory.wfFrom, hb]
    · simp [Memory.write, Memory.wfFrom, hb, hlo, ha]
  | cons kv rest ih =>
    obtain ⟨j, v⟩ := kv
    obtain ⟨hj, hjm, hv, hr⟩ := Memory.wfFrom_cons.mp h
    rcases Nat.lt_trichotomy a j with haj | rfl | haj
    · by_cases hb : b = resetByte c a
      · simpa [Memory.write, haj, hb] using h
      · simp [Memory.write, haj, hb, Memory.wfFrom_cons, hlo, ha, hjm, hv, hr, Nat.succ_le_of_lt haj]
    · by_cases hb : b = resetByte c a
      · simpa [Memory.write, hb] using Memory.wfFrom_mono hr (by omega)
      · simp [Memory.write, hb, Memory.wfFrom_cons, hlo, ha, hr]
    · have : ¬ a < j := Nat.not_lt.mpr haj.le
      simp [Memory.write, this, haj.ne', Memory.wfFrom_cons, hj, hjm, hv, ih hr (Nat.succ_le_of_lt haj)]

theorem Memory.wf_write {m : Memory} (h : Memory.wf c m = true) {a : Nat} (b : Byte) (ha : a < memSize) :
    Memory.wf c (Memory.write c m a b) = true :=
  Memory.wfFrom_write h b (Nat.zero_le a) ha

/-- Ascending writes inside memory keep the canonical form. -/
theorem Memory.wf_writeAll {m : Memory} (h : Memory.wf c m = true) {a : Nat} {bs : List Byte}
    (ha : a + bs.length ≤ memSize) : Memory.wf c (Memory.writeAll c m a bs) = true := by
  induction bs generalizing m a with
  | nil => exact h
  | cons b bs ih =>
    simp only [List.length_cons] at ha
    exact ih (Memory.wf_write h b (by omega)) (by omega)

/-- After ascending writes the `j`-th address reads as the `j`-th byte, and every other address as before. -/
theorem Memory.read_writeAll {m : Memory} (h : Memory.wf c m = true) {a : Nat} {bs : List Byte}
    (ha : a + bs.length ≤ memSize) (k : Nat) :
    Memory.read c (Memory.writeAll c m a bs) k =
      if a ≤ k then bs.getD (k - a) (Memory.read c m k) else Memory.read c m k := by
  induction bs generalizing m a with
  | nil => simp [Memory.writeAll]
  | cons b bs ih =>
    simp only [List.length_cons] at ha
    rw [Memory.writeAll, ih (Memory.wf_write h b (by omega)) (by omega), Memory.read_write h]
    rcases Nat.lt_trichotomy k a with hk | rfl | hk
    · rw [if_neg (by omega), if_neg hk.ne, if_neg (by omega)]
    · simp
    · obtain ⟨d, rfl⟩ := Nat.exists_eq_add_of_lt hk
      rw [if_pos (by omega), if_neg (by omega), if_pos (by omega)]
      simp [show a + d + 1 - (a + 1) = d by omega, show a + d + 1 - a = d + 1 by omega]

end Sys2Proof.Machine
end

