-- ==== Sys2Proof/Laws/State.lean ====
section
/-! SUPPORT. What each update of the state leaves in each field: one lemma per update and field, true by rfl, so that no
later proof unfolds a record update; and what a register or a byte reads as after it. -/

namespace Sys2Proof.Machine

variable (s : State)

/-! ### writeReg -/

@[simp] theorem writeReg_cfg (x : RegId) (b : Byte) : (writeReg x b s).cfg = s.cfg := rfl
@[simp] theorem writeReg_v (x : RegId) (b : Byte) : (writeReg x b s).v = s.v.set x.toNat b x.isLt := rfl
@[simp] theorem writeReg_i (x : RegId) (b : Byte) : (writeReg x b s).i = s.i := rfl
@[simp] theorem writeReg_pc (x : RegId) (b : Byte) : (writeReg x b s).pc = s.pc := rfl
@[simp] theorem writeReg_sp (x : RegId) (b : Byte) : (writeReg x b s).sp = s.sp := rfl
@[simp] theorem writeReg_stack (x : RegId) (b : Byte) : (writeReg x b s).stack = s.stack := rfl
@[simp] theorem writeReg_dt (x : RegId) (b : Byte) : (writeReg x b s).dt = s.dt := rfl
@[simp] theorem writeReg_st (x : RegId) (b : Byte) : (writeReg x b s).st = s.st := rfl
@[simp] theorem writeReg_phase (x : RegId) (b : Byte) : (writeReg x b s).phase = s.phase := rfl
@[simp] theorem writeReg_status (x : RegId) (b : Byte) : (writeReg x b s).status = s.status := rfl
@[simp] theorem writeReg_mem (x : RegId) (b : Byte) : (writeReg x b s).mem = s.mem := rfl
@[simp] theorem writeReg_inputs (x : RegId) (b : Byte) : (writeReg x b s).inputs = s.inputs := rfl
@[simp] theorem writeReg_draws (x : RegId) (b : Byte) : (writeReg x b s).draws = s.draws := rfl
@[simp] theorem writeReg_requests (x : RegId) (b : Byte) : (writeReg x b s).requests = s.requests := rfl
@[simp] theorem readByte_writeReg (m : Nat) (x : RegId) (b : Byte) : readByte m (writeReg x b s) = readByte m s := rfl

/-! ### writeI -/

@[simp] theorem writeI_cfg (a : Addr) : (writeI a s).cfg = s.cfg := rfl
@[simp] theorem writeI_v (a : Addr) : (writeI a s).v = s.v := rfl
@[simp] theorem writeI_i (a : Addr) : (writeI a s).i = a := rfl
@[simp] theorem writeI_pc (a : Addr) : (writeI a s).pc = s.pc := rfl
@[simp] theorem writeI_sp (a : Addr) : (writeI a s).sp = s.sp := rfl
@[simp] theorem writeI_stack (a : Addr) : (writeI a s).stack = s.stack := rfl
@[simp] theorem writeI_dt (a : Addr) : (writeI a s).dt = s.dt := rfl
@[simp] theorem writeI_st (a : Addr) : (writeI a s).st = s.st := rfl
@[simp] theorem writeI_phase (a : Addr) : (writeI a s).phase = s.phase := rfl
@[simp] theorem writeI_status (a : Addr) : (writeI a s).status = s.status := rfl
@[simp] theorem writeI_mem (a : Addr) : (writeI a s).mem = s.mem := rfl
@[simp] theorem writeI_inputs (a : Addr) : (writeI a s).inputs = s.inputs := rfl
@[simp] theorem writeI_draws (a : Addr) : (writeI a s).draws = s.draws := rfl
@[simp] theorem writeI_requests (a : Addr) : (writeI a s).requests = s.requests := rfl
@[simp] theorem readReg_writeI (r : RegId) (a : Addr) : readReg r (writeI a s) = readReg r s := rfl
@[simp] theorem readByte_writeI (m : Nat) (a : Addr) : readByte m (writeI a s) = readByte m s := rfl

/-! ### setPc -/

@[simp] theorem setPc_cfg (p : Word) : (setPc p s).cfg = s.cfg := rfl
@[simp] theorem setPc_v (p : Word) : (setPc p s).v = s.v := rfl
@[simp] theorem setPc_i (p : Word) : (setPc p s).i = s.i := rfl
@[simp] theorem setPc_pc (p : Word) : (setPc p s).pc = p := rfl
@[simp] theorem setPc_sp (p : Word) : (setPc p s).sp = s.sp := rfl
@[simp] theorem setPc_stack (p : Word) : (setPc p s).stack = s.stack := rfl
@[simp] theorem setPc_dt (p : Word) : (setPc p s).dt = s.dt := rfl
@[simp] theorem setPc_st (p : Word) : (setPc p s).st = s.st := rfl
@[simp] theorem setPc_phase (p : Word) : (setPc p s).phase = s.phase := rfl
@[simp] theorem setPc_status (p : Word) : (setPc p s).status = s.status := rfl
@[simp] theorem setPc_mem (p : Word) : (setPc p s).mem = s.mem := rfl
@[simp] theorem setPc_inputs (p : Word) : (setPc p s).inputs = s.inputs := rfl
@[simp] theorem setPc_draws (p : Word) : (setPc p s).draws = s.draws := rfl
@[simp] theorem setPc_requests (p : Word) : (setPc p s).requests = s.requests := rfl
@[simp] theorem readReg_setPc (r : RegId) (p : Word) : readReg r (setPc p s) = readReg r s := rfl
@[simp] theorem readByte_setPc (m : Nat) (p : Word) : readByte m (setPc p s) = readByte m s := rfl

/-! ### writeDt -/

@[simp] theorem writeDt_cfg (b : Byte) : (writeDt b s).cfg = s.cfg := rfl
@[simp] theorem writeDt_v (b : Byte) : (writeDt b s).v = s.v := rfl
@[simp] theorem writeDt_i (b : Byte) : (writeDt b s).i = s.i := rfl
@[simp] theorem writeDt_pc (b : Byte) : (writeDt b s).pc = s.pc := rfl
@[simp] theorem writeDt_sp (b : Byte) : (writeDt b s).sp = s.sp := rfl
@[simp] theorem writeDt_stack (b : Byte) : (writeDt b s).stack = s.stack := rfl
@[simp] theorem writeDt_dt (b : Byte) : (writeDt b s).dt = b := rfl
@[simp] theorem writeDt_st (b : Byte) : (writeDt b s).st = s.st := rfl
@[simp] theorem writeDt_phase (b : Byte) : (writeDt b s).phase = s.phase := rfl
@[simp] theorem writeDt_status (b : Byte) : (writeDt b s).status = s.status := rfl
@[simp] theorem writeDt_mem (b : Byte) : (writeDt b s).mem = s.mem := rfl
@[simp] theorem writeDt_inputs (b : Byte) : (writeDt b s).inputs = s.inputs := rfl
@[simp] theorem writeDt_draws (b : Byte) : (writeDt b s).draws = s.draws := rfl
@[simp] theorem writeDt_requests (b : Byte) : (writeDt b s).requests = s.requests := rfl
@[simp] theorem readReg_writeDt (r : RegId) (b : Byte) : readReg r (writeDt b s) = readReg r s := rfl
@[simp] theorem readByte_writeDt (m : Nat) (b : Byte) : readByte m (writeDt b s) = readByte m s := rfl

/-! ### writeSt -/

@[simp] theorem writeSt_cfg (b : Byte) : (writeSt b s).cfg = s.cfg := rfl
@[simp] theorem writeSt_v (b : Byte) : (writeSt b s).v = s.v := rfl
@[simp] theorem writeSt_i (b : Byte) : (writeSt b s).i = s.i := rfl
@[simp] theorem writeSt_pc (b : Byte) : (writeSt b s).pc = s.pc := rfl
@[simp] theorem writeSt_sp (b : Byte) : (writeSt b s).sp = s.sp := rfl
@[simp] theorem writeSt_stack (b : Byte) : (writeSt b s).stack = s.stack := rfl
@[simp] theorem writeSt_dt (b : Byte) : (writeSt b s).dt = s.dt := rfl
@[simp] theorem writeSt_st (b : Byte) : (writeSt b s).st = b := rfl
@[simp] theorem writeSt_phase (b : Byte) : (writeSt b s).phase = s.phase := rfl
@[simp] theorem writeSt_status (b : Byte) : (writeSt b s).status = s.status := rfl
@[simp] theorem writeSt_mem (b : Byte) : (writeSt b s).mem = s.mem := rfl
@[simp] theorem writeSt_inputs (b : Byte) : (writeSt b s).inputs = s.inputs := rfl
@[simp] theorem writeSt_draws (b : Byte) : (writeSt b s).draws = s.draws := rfl
@[simp] theorem writeSt_requests (b : Byte) : (writeSt b s).requests = s.requests := rfl
@[simp] theorem readReg_writeSt (r : RegId) (b : Byte) : readReg r (writeSt b s) = readReg r s := rfl
@[simp] theorem readByte_writeSt (m : Nat) (b : Byte) : readByte m (writeSt b s) = readByte m s := rfl

/-! ### setTimers -/

@[simp] theorem setTimers_cfg (d e : Byte) (p : Nat) : (setTimers d e p s).cfg = s.cfg := rfl
@[simp] theorem setTimers_v (d e : Byte) (p : Nat) : (setTimers d e p s).v = s.v := rfl
@[simp] theorem setTimers_i (d e : Byte) (p : Nat) : (setTimers d e p s).i = s.i := rfl
@[simp] theorem setTimers_pc (d e : Byte) (p : Nat) : (setTimers d e p s).pc = s.pc := rfl
@[simp] theorem setTimers_sp (d e : Byte) (p : Nat) : (setTimers d e p s).sp = s.sp := rfl
@[simp] theorem setTimers_stack (d e : Byte) (p : Nat) : (setTimers d e p s).stack = s.stack := rfl
@[simp] theorem setTimers_dt (d e : Byte) (p : Nat) : (setTimers d e p s).dt = d := rfl
@[simp] theorem setTimers_st (d e : Byte) (p : Nat) : (setTimers d e p s).st = e := rfl
@[simp] theorem setTimers_phase (d e : Byte) (p : Nat) : (setTimers d e p s).phase = p := rfl
@[simp] theorem setTimers_status (d e : Byte) (p : Nat) : (setTimers d e p s).status = s.status := rfl
@[simp] theorem setTimers_mem (d e : Byte) (p : Nat) : (setTimers d e p s).mem = s.mem := rfl
@[simp] theorem setTimers_inputs (d e : Byte) (p : Nat) : (setTimers d e p s).inputs = s.inputs := rfl
@[simp] theorem setTimers_draws (d e : Byte) (p : Nat) : (setTimers d e p s).draws = s.draws := rfl
@[simp] theorem setTimers_requests (d e : Byte) (p : Nat) : (setTimers d e p s).requests = s.requests := rfl
@[simp] theorem readReg_setTimers (r : RegId) (d e : Byte) (p : Nat) : readReg r (setTimers d e p s) = readReg r s := rfl
@[simp] theorem readByte_setTimers (m : Nat) (d e : Byte) (p : Nat) : readByte m (setTimers d e p s) = readByte m s := rfl

/-! ### setStatus -/

@[simp] theorem setStatus_cfg (r : Status) : (setStatus r s).cfg = s.cfg := rfl
@[simp] theorem setStatus_v (r : Status) : (setStatus r s).v = s.v := rfl
@[simp] theorem setStatus_i (r : Status) : (setStatus r s).i = s.i := rfl
@[simp] theorem setStatus_pc (r : Status) : (setStatus r s).pc = s.pc := rfl
@[simp] theorem setStatus_sp (r : Status) : (setStatus r s).sp = s.sp := rfl
@[simp] theorem setStatus_stack (r : Status) : (setStatus r s).stack = s.stack := rfl
@[simp] theorem setStatus_dt (r : Status) : (setStatus r s).dt = s.dt := rfl
@[simp] theorem setStatus_st (r : Status) : (setStatus r s).st = s.st := rfl
@[simp] theorem setStatus_phase (r : Status) : (setStatus r s).phase = s.phase := rfl
@[simp] theorem setStatus_status (r : Status) : (setStatus r s).status = r := rfl
@[simp] theorem setStatus_mem (r : Status) : (setStatus r s).mem = s.mem := rfl
@[simp] theorem setStatus_inputs (r : Status) : (setStatus r s).inputs = s.inputs := rfl
@[simp] theorem setStatus_draws (r : Status) : (setStatus r s).draws = s.draws := rfl
@[simp] theorem setStatus_requests (r : Status) : (setStatus r s).requests = s.requests := rfl
@[simp] theorem readReg_setStatus (x : RegId) (r : Status) : readReg x (setStatus r s) = readReg x s := rfl
@[simp] theorem readByte_setStatus (m : Nat) (r : Status) : readByte m (setStatus r s) = readByte m s := rfl

/-! ### advance -/

@[simp] theorem advance_cfg : (advance s).cfg = s.cfg := rfl
@[simp] theorem advance_v : (advance s).v = s.v := rfl
@[simp] theorem advance_i : (advance s).i = s.i := rfl
@[simp] theorem advance_pc : (advance s).pc = s.pc + 2#16 := rfl
@[simp] theorem advance_sp : (advance s).sp = s.sp := rfl
@[simp] theorem advance_stack : (advance s).stack = s.stack := rfl
@[simp] theorem advance_dt : (advance s).dt = s.dt := rfl
@[simp] theorem advance_st : (advance s).st = s.st := rfl
@[simp] theorem advance_phase : (advance s).phase = s.phase := rfl
@[simp] theorem advance_status : (advance s).status = s.status := rfl
@[simp] theorem advance_mem : (advance s).mem = s.mem := rfl
@[simp] theorem advance_inputs : (advance s).inputs = s.inputs := rfl
@[simp] theorem advance_draws : (advance s).draws = s.draws := rfl
@[simp] theorem advance_requests : (advance s).requests = s.requests := rfl
@[simp] theorem readReg_advance (r : RegId) : readReg r (advance s) = readReg r s := rfl
@[simp] theorem readByte_advance (m : Nat) : readByte m (advance s) = readByte m s := rfl

/-! ### skipIf -/

@[simp] theorem skipIf_cfg (c : Bool) : (skipIf c s).cfg = s.cfg := rfl
@[simp] theorem skipIf_v (c : Bool) : (skipIf c s).v = s.v := rfl
@[simp] theorem skipIf_i (c : Bool) : (skipIf c s).i = s.i := rfl
@[simp] theorem skipIf_pc (c : Bool) : (skipIf c s).pc = s.pc + if c then 4#16 else 2#16 := rfl
@[simp] theorem skipIf_sp (c : Bool) : (skipIf c s).sp = s.sp := rfl
@[simp] theorem skipIf_stack (c : Bool) : (skipIf c s).stack = s.stack := rfl
@[simp] theorem skipIf_dt (c : Bool) : (skipIf c s).dt = s.dt := rfl
@[simp] theorem skipIf_st (c : Bool) : (skipIf c s).st = s.st := rfl
@[simp] theorem skipIf_phase (c : Bool) : (skipIf c s).phase = s.phase := rfl
@[simp] theorem skipIf_status (c : Bool) : (skipIf c s).status = s.status := rfl
@[simp] theorem skipIf_mem (c : Bool) : (skipIf c s).mem = s.mem := rfl
@[simp] theorem skipIf_inputs (c : Bool) : (skipIf c s).inputs = s.inputs := rfl
@[simp] theorem skipIf_draws (c : Bool) : (skipIf c s).draws = s.draws := rfl
@[simp] theorem skipIf_requests (c : Bool) : (skipIf c s).requests = s.requests := rfl
@[simp] theorem readReg_skipIf (r : RegId) (c : Bool) : readReg r (skipIf c s) = readReg r s := rfl
@[simp] theorem readByte_skipIf (m : Nat) (c : Bool) : readByte m (skipIf c s) = readByte m s := rfl

/-! ### jumpTo -/

@[simp] theorem jumpTo_cfg (a : Addr) : (jumpTo a s).cfg = s.cfg := rfl
@[simp] theorem jumpTo_v (a : Addr) : (jumpTo a s).v = s.v := rfl
@[simp] theorem jumpTo_i (a : Addr) : (jumpTo a s).i = s.i := rfl
@[simp] theorem jumpTo_pc (a : Addr) : (jumpTo a s).pc = a.zeroExtend 16 := rfl
@[simp] theorem jumpTo_sp (a : Addr) : (jumpTo a s).sp = s.sp := rfl
@[simp] theorem jumpTo_stack (a : Addr) : (jumpTo a s).stack = s.stack := rfl
@[simp] theorem jumpTo_dt (a : Addr) : (jumpTo a s).dt = s.dt := rfl
@[simp] theorem jumpTo_st (a : Addr) : (jumpTo a s).st = s.st := rfl
@[simp] theorem jumpTo_phase (a : Addr) : (jumpTo a s).phase = s.phase := rfl
@[simp] theorem jumpTo_status (a : Addr) : (jumpTo a s).status = s.status := rfl
@[simp] theorem jumpTo_mem (a : Addr) : (jumpTo a s).mem = s.mem := rfl
@[simp] theorem jumpTo_inputs (a : Addr) : (jumpTo a s).inputs = s.inputs := rfl
@[simp] theorem jumpTo_draws (a : Addr) : (jumpTo a s).draws = s.draws := rfl
@[simp] theorem jumpTo_requests (a : Addr) : (jumpTo a s).requests = s.requests := rfl
@[simp] theorem readReg_jumpTo (r : RegId) (a : Addr) : readReg r (jumpTo a s) = readReg r s := rfl
@[simp] theorem readByte_jumpTo (m : Nat) (a : Addr) : readByte m (jumpTo a s) = readByte m s := rfl

/-! ### takeError -/

@[simp] theorem takeError_cfg (e : CoreError) : (takeError e s).cfg = s.cfg := rfl
@[simp] theorem takeError_v (e : CoreError) : (takeError e s).v = s.v := rfl
@[simp] theorem takeError_i (e : CoreError) : (takeError e s).i = s.i := rfl
@[simp] theorem takeError_pc (e : CoreError) : (takeError e s).pc = s.pc := rfl
@[simp] theorem takeError_sp (e : CoreError) : (takeError e s).sp = s.sp := rfl
@[simp] theorem takeError_stack (e : CoreError) : (takeError e s).stack = s.stack := rfl
@[simp] theorem takeError_dt (e : CoreError) : (takeError e s).dt = s.dt := rfl
@[simp] theorem takeError_st (e : CoreError) : (takeError e s).st = s.st := rfl
@[simp] theorem takeError_phase (e : CoreError) : (takeError e s).phase = s.phase := rfl
@[simp] theorem takeError_status (e : CoreError) : (takeError e s).status = .halted ⟨e, s.pc⟩ := rfl
@[simp] theorem takeError_mem (e : CoreError) : (takeError e s).mem = s.mem := rfl
@[simp] theorem takeError_inputs (e : CoreError) : (takeError e s).inputs = s.inputs := rfl
@[simp] theorem takeError_draws (e : CoreError) : (takeError e s).draws = s.draws := rfl
@[simp] theorem takeError_requests (e : CoreError) : (takeError e s).requests = s.requests := rfl
@[simp] theorem readReg_takeError (r : RegId) (e : CoreError) : readReg r (takeError e s) = readReg r s := rfl
@[simp] theorem readByte_takeError (m : Nat) (e : CoreError) : readByte m (takeError e s) = readByte m s := rfl

/-! ### takeElapsed -/

@[simp] theorem takeElapsed_cfg : (takeElapsed s).cfg = s.cfg := rfl
@[simp] theorem takeElapsed_v : (takeElapsed s).v = s.v := rfl
@[simp] theorem takeElapsed_i : (takeElapsed s).i = s.i := rfl
@[simp] theorem takeElapsed_pc : (takeElapsed s).pc = s.pc := rfl
@[simp] theorem takeElapsed_sp : (takeElapsed s).sp = s.sp := rfl
@[simp] theorem takeElapsed_stack : (takeElapsed s).stack = s.stack := rfl
@[simp] theorem takeElapsed_dt : (takeElapsed s).dt = s.dt := rfl
@[simp] theorem takeElapsed_st : (takeElapsed s).st = s.st := rfl
@[simp] theorem takeElapsed_phase : (takeElapsed s).phase = s.phase := rfl
@[simp] theorem takeElapsed_status : (takeElapsed s).status = s.status := rfl
@[simp] theorem takeElapsed_mem : (takeElapsed s).mem = s.mem := rfl
@[simp] theorem takeElapsed_inputs : (takeElapsed s).inputs = { s.inputs with elapsed := s.inputs.elapsed.tail } := rfl
@[simp] theorem takeElapsed_draws : (takeElapsed s).draws = s.draws + 1 := rfl
@[simp] theorem takeElapsed_requests : (takeElapsed s).requests = s.requests := rfl
@[simp] theorem readReg_takeElapsed (r : RegId) : readReg r (takeElapsed s) = readReg r s := rfl
@[simp] theorem readByte_takeElapsed (m : Nat) : readByte m (takeElapsed s) = readByte m s := rfl

/-! ### askKeyPressed -/

@[simp] theorem askKeyPressed_cfg (k : Byte) : (askKeyPressed k s).cfg = s.cfg := rfl
@[simp] theorem askKeyPressed_v (k : Byte) : (askKeyPressed k s).v = s.v := rfl
@[simp] theorem askKeyPressed_i (k : Byte) : (askKeyPressed k s).i = s.i := rfl
@[simp] theorem askKeyPressed_pc (k : Byte) : (askKeyPressed k s).pc = s.pc := rfl
@[simp] theorem askKeyPressed_sp (k : Byte) : (askKeyPressed k s).sp = s.sp := rfl
@[simp] theorem askKeyPressed_stack (k : Byte) : (askKeyPressed k s).stack = s.stack := rfl
@[simp] theorem askKeyPressed_dt (k : Byte) : (askKeyPressed k s).dt = s.dt := rfl
@[simp] theorem askKeyPressed_st (k : Byte) : (askKeyPressed k s).st = s.st := rfl
@[simp] theorem askKeyPressed_phase (k : Byte) : (askKeyPressed k s).phase = s.phase := rfl
@[simp] theorem askKeyPressed_status (k : Byte) : (askKeyPressed k s).status = s.status := rfl
@[simp] theorem askKeyPressed_mem (k : Byte) : (askKeyPressed k s).mem = s.mem := rfl
@[simp] theorem askKeyPressed_inputs (k : Byte) : (askKeyPressed k s).inputs = { s.inputs with keyPressed := s.inputs.keyPressed.tail } := rfl
@[simp] theorem askKeyPressed_draws (k : Byte) : (askKeyPressed k s).draws = s.draws + 1 := rfl
@[simp] theorem askKeyPressed_requests (k : Byte) : (askKeyPressed k s).requests = s.requests ++ [.keyPressed k] := rfl
@[simp] theorem readReg_askKeyPressed (r : RegId) (k : Byte) : readReg r (askKeyPressed k s) = readReg r s := rfl
@[simp] theorem readByte_askKeyPressed (m : Nat) (k : Byte) : readByte m (askKeyPressed k s) = readByte m s := rfl

/-! ### askKeyEvent -/

@[simp] theorem askKeyEvent_cfg : (askKeyEvent s).cfg = s.cfg := rfl
@[simp] theorem askKeyEvent_v : (askKeyEvent s).v = s.v := rfl
@[simp] theorem askKeyEvent_i : (askKeyEvent s).i = s.i := rfl
@[simp] theorem askKeyEvent_pc : (askKeyEvent s).pc = s.pc := rfl
@[simp] theorem askKeyEvent_sp : (askKeyEvent s).sp = s.sp := rfl
@[simp] theorem askKeyEvent_stack : (askKeyEvent s).stack = s.stack := rfl
@[simp] theorem askKeyEvent_dt : (askKeyEvent s).dt = s.dt := rfl
@[simp] theorem askKeyEvent_st : (askKeyEvent s).st = s.st := rfl
@[simp] theorem askKeyEvent_phase : (askKeyEvent s).phase = s.phase := rfl
@[simp] theorem askKeyEvent_status : (askKeyEvent s).status = s.status := rfl
@[simp] theorem askKeyEvent_mem : (askKeyEvent s).mem = s.mem := rfl
@[simp] theorem askKeyEvent_inputs : (askKeyEvent s).inputs = { s.inputs with keyEvent := s.inputs.keyEvent.tail } := rfl
@[simp] theorem askKeyEvent_draws : (askKeyEvent s).draws = s.draws + 1 := rfl
@[simp] theorem askKeyEvent_requests : (askKeyEvent s).requests = s.requests ++ [.keyEvent] := rfl
@[simp] theorem readReg_askKeyEvent (r : RegId) : readReg r (askKeyEvent s) = readReg r s := rfl
@[simp] theorem readByte_askKeyEvent (m : Nat) : readByte m (askKeyEvent s) = readByte m s := rfl

/-! ### askRandom -/

@[simp] theorem askRandom_cfg : (askRandom s).cfg = s.cfg := rfl
@[simp] theorem askRandom_v : (askRandom s).v = s.v := rfl
@[simp] theorem askRandom_i : (askRandom s).i = s.i := rfl
@[simp] theorem askRandom_pc : (askRandom s).pc = s.pc := rfl
@[simp] theorem askRandom_sp : (askRandom s).sp = s.sp := rfl
@[simp] theorem askRandom_stack : (askRandom s).stack = s.stack := rfl
@[simp] theorem askRandom_dt : (askRandom s).dt = s.dt := rfl
@[simp] theorem askRandom_st : (askRandom s).st = s.st := rfl
@[simp] theorem askRandom_phase : (askRandom s).phase = s.phase := rfl
@[simp] theorem askRandom_status : (askRandom s).status = s.status := rfl
@[simp] theorem askRandom_mem : (askRandom s).mem = s.mem := rfl
@[simp] theorem askRandom_inputs : (askRandom s).inputs = { s.inputs with randomByte := s.inputs.randomByte.tail } := rfl
@[simp] theorem askRandom_draws : (askRandom s).draws = s.draws + 1 := rfl
@[simp] theorem askRandom_requests : (askRandom s).requests = s.requests ++ [.randomByte] := rfl
@[simp] theorem readReg_askRandom (r : RegId) : readReg r (askRandom s) = readReg r s := rfl
@[simp] theorem readByte_askRandom (m : Nat) : readByte m (askRandom s) = readByte m s := rfl

/-! ### askDraw -/

@[simp] theorem askDraw_cfg (x y : Byte) (rows : List Byte) : (askDraw x y rows s).cfg = s.cfg := rfl
@[simp] theorem askDraw_v (x y : Byte) (rows : List Byte) : (askDraw x y rows s).v = s.v := rfl
@[simp] theorem askDraw_i (x y : Byte) (rows : List Byte) : (askDraw x y rows s).i = s.i := rfl
@[simp] theorem askDraw_pc (x y : Byte) (rows : List Byte) : (askDraw x y rows s).pc = s.pc := rfl
@[simp] theorem askDraw_sp (x y : Byte) (rows : List Byte) : (askDraw x y rows s).sp = s.sp := rfl
@[simp] theorem askDraw_stack (x y : Byte) (rows : List Byte) : (askDraw x y rows s).stack = s.stack := rfl
@[simp] theorem askDraw_dt (x y : Byte) (rows : List Byte) : (askDraw x y rows s).dt = s.dt := rfl
@[simp] theorem askDraw_st (x y : Byte) (rows : List Byte) : (askDraw x y rows s).st = s.st := rfl
@[simp] theorem askDraw_phase (x y : Byte) (rows : List Byte) : (askDraw x y rows s).phase = s.phase := rfl
@[simp] theorem askDraw_status (x y : Byte) (rows : List Byte) : (askDraw x y rows s).status = s.status := rfl
@[simp] theorem askDraw_mem (x y : Byte) (rows : List Byte) : (askDraw x y rows s).mem = s.mem := rfl
@[simp] theorem askDraw_inputs (x y : Byte) (rows : List Byte) : (askDraw x y rows s).inputs = { s.inputs with collision := s.inputs.collision.tail } := rfl
@[simp] theorem askDraw_draws (x y : Byte) (rows : List Byte) : (askDraw x y rows s).draws = s.draws + 1 := rfl
@[simp] theorem askDraw_requests (x y : Byte) (rows : List Byte) : (askDraw x y rows s).requests = s.requests ++ [.displayDraw x y rows] := rfl
@[simp] theorem readReg_askDraw (r : RegId) (x y : Byte) (rows : List Byte) : readReg r (askDraw x y rows s) = readReg r s := rfl
@[simp] theorem readByte_askDraw (m : Nat) (x y : Byte) (rows : List Byte) : readByte m (askDraw x y rows s) = readByte m s := rfl

/-! ### askClear -/

@[simp] theorem askClear_cfg : (askClear s).cfg = s.cfg := rfl
@[simp] theorem askClear_v : (askClear s).v = s.v := rfl
@[simp] theorem askClear_i : (askClear s).i = s.i := rfl
@[simp] theorem askClear_pc : (askClear s).pc = s.pc := rfl
@[simp] theorem askClear_sp : (askClear s).sp = s.sp := rfl
@[simp] theorem askClear_stack : (askClear s).stack = s.stack := rfl
@[simp] theorem askClear_dt : (askClear s).dt = s.dt := rfl
@[simp] theorem askClear_st : (askClear s).st = s.st := rfl
@[simp] theorem askClear_phase : (askClear s).phase = s.phase := rfl
@[simp] theorem askClear_status : (askClear s).status = s.status := rfl
@[simp] theorem askClear_mem : (askClear s).mem = s.mem := rfl
@[simp] theorem askClear_inputs : (askClear s).inputs = s.inputs := rfl
@[simp] theorem askClear_draws : (askClear s).draws = s.draws := rfl
@[simp] theorem askClear_requests : (askClear s).requests = s.requests ++ [.displayClear] := rfl
@[simp] theorem readReg_askClear (r : RegId) : readReg r (askClear s) = readReg r s := rfl
@[simp] theorem readByte_askClear (m : Nat) : readByte m (askClear s) = readByte m s := rfl

/-! ### writeFlag -/

@[simp] theorem writeFlag_cfg (f : Byte) : (writeFlag f s).cfg = s.cfg := rfl
@[simp] theorem writeFlag_v (f : Byte) : (writeFlag f s).v = s.v.set 15 f := rfl
@[simp] theorem writeFlag_i (f : Byte) : (writeFlag f s).i = s.i := rfl
@[simp] theorem writeFlag_pc (f : Byte) : (writeFlag f s).pc = s.pc := rfl
@[simp] theorem writeFlag_sp (f : Byte) : (writeFlag f s).sp = s.sp := rfl
@[simp] theorem writeFlag_stack (f : Byte) : (writeFlag f s).stack = s.stack := rfl
@[simp] theorem writeFlag_dt (f : Byte) : (writeFlag f s).dt = s.dt := rfl
@[simp] theorem writeFlag_st (f : Byte) : (writeFlag f s).st = s.st := rfl
@[simp] theorem writeFlag_phase (f : Byte) : (writeFlag f s).phase = s.phase := rfl
@[simp] theorem writeFlag_status (f : Byte) : (writeFlag f s).status = s.status := rfl
@[simp] theorem writeFlag_mem (f : Byte) : (writeFlag f s).mem = s.mem := rfl
@[simp] theorem writeFlag_inputs (f : Byte) : (writeFlag f s).inputs = s.inputs := rfl
@[simp] theorem writeFlag_draws (f : Byte) : (writeFlag f s).draws = s.draws := rfl
@[simp] theorem writeFlag_requests (f : Byte) : (writeFlag f s).requests = s.requests := rfl
@[simp] theorem readByte_writeFlag (m : Nat) (f : Byte) : readByte m (writeFlag f s) = readByte m s := rfl

/-! ### writeResultAndFlag -/

@[simp] theorem writeResultAndFlag_cfg (x : RegId) (r f : Byte) : (writeResultAndFlag x r f s).cfg = s.cfg := rfl
@[simp] theorem writeResultAndFlag_v (x : RegId) (r f : Byte) : (writeResultAndFlag x r f s).v = (s.v.set x.toNat r x.isLt).set 15 f := rfl
@[simp] theorem writeResultAndFlag_i (x : RegId) (r f : Byte) : (writeResultAndFlag x r f s).i = s.i := rfl
@[simp] theorem writeResultAndFlag_pc (x : RegId) (r f : Byte) : (writeResultAndFlag x r f s).pc = s.pc := rfl
@[simp] theorem writeResultAndFlag_sp (x : RegId) (r f : Byte) : (writeResultAndFlag x r f s).sp = s.sp := rfl
@[simp] theorem writeResultAndFlag_stack (x : RegId) (r f : Byte) : (writeResultAndFlag x r f s).stack = s.stack := rfl
@[simp] theorem writeResultAndFlag_dt (x : RegId) (r f : Byte) : (writeResultAndFlag x r f s).dt = s.dt := rfl
@[simp] theorem writeResultAndFlag_st (x : RegId) (r f : Byte) : (writeResultAndFlag x r f s).st = s.st := rfl
@[simp] theorem writeResultAndFlag_phase (x : RegId) (r f : Byte) : (writeResultAndFlag x r f s).phase = s.phase := rfl
@[simp] theorem writeResultAndFlag_status (x : RegId) (r f : Byte) : (writeResultAndFlag x r f s).status = s.status := rfl
@[simp] theorem writeResultAndFlag_mem (x : RegId) (r f : Byte) : (writeResultAndFlag x r f s).mem = s.mem := rfl
@[simp] theorem writeResultAndFlag_inputs (x : RegId) (r f : Byte) : (writeResultAndFlag x r f s).inputs = s.inputs := rfl
@[simp] theorem writeResultAndFlag_draws (x : RegId) (r f : Byte) : (writeResultAndFlag x r f s).draws = s.draws := rfl
@[simp] theorem writeResultAndFlag_requests (x : RegId) (r f : Byte) : (writeResultAndFlag x r f s).requests = s.requests := rfl
@[simp] theorem readByte_writeResultAndFlag (m : Nat) (x : RegId) (r f : Byte) : readByte m (writeResultAndFlag x r f s) = readByte m s := rfl

/-! ### Registers -/

/-- A register reads as what was last written to it. -/
@[simp] theorem readReg_writeReg (x r : RegId) (b : Byte) :
    readReg r (writeReg x b s) = if r = x then b else readReg r s := by
  simp [readReg, writeReg, Vector.getElem_set, BitVec.toNat_inj, eq_comm]

@[simp] theorem readReg_writeFlag (f : Byte) (r : RegId) :
    readReg r (writeFlag f s) = if r = 0xF#4 then f else readReg r s := readReg_writeReg ..

/-- The flag is written last: it is what VF reads as, the destination included (R18). -/
@[simp] theorem readReg_writeResultAndFlag (x r : RegId) (b f : Byte) :
    readReg r (writeResultAndFlag x b f s) = if r = 0xF#4 then f else if r = x then b else readReg r s := by
  simp [writeResultAndFlag]

/-- Two states with the same registers read alike. -/
theorem readReg_congr {s t : State} (h : t.v = s.v) (r : RegId) : readReg r t = readReg r s := by
  simp [readReg, h]

/-- Two states with the same memory and parameters read alike. -/
theorem readByte_congr {s t : State} (hm : t.mem = s.mem) (hc : t.cfg = s.cfg) (a : Nat) :
    readByte a t = readByte a s := by
  simp [readByte, hm, hc]

end Sys2Proof.Machine
end

