-- ==== Sys2Proof/Laws/Ops.lean ====
section
/-! SUPPORT. One lemma per shared operation, saying all that it can do: the bounds check, memory reads and writes, fetch, the
call stack, the register block and the pc sums. The provers cite these instead of unfolding the operations. -/

namespace Sys2Proof.Machine

variable (s : State)

/-! ### The bounds check and memory -/

/-- The bounds check passes exactly when no byte lies beyond memory; else it names the lowest that does. -/
theorem firstBeyond_eq (a n : Nat) :
    firstBeyond a n = if n = 0 ∨ a + n ≤ 0x1000 then none else some (max a 0x1000) := by
  induction n generalizing a with
  | zero => simp [firstBeyond]
  | succ n ih =>
    by_cases h : a > 0xFFF
    · rw [firstBeyond, if_pos h, if_neg (by omega), Nat.max_eq_left (by omega)]
    · rw [firstBeyond, if_neg h, ih]
      by_cases hn : n = 0
      · rw [if_pos (.inl hn), if_pos (by omega)]
      · by_cases hb : a + 1 + n ≤ 0x1000
        · rw [if_pos (.inr hb), if_pos (by omega)]
        · rw [if_neg (by omega), if_neg (by omega), Nat.max_eq_right (by omega), Nat.max_eq_right (by omega)]

/-- The bytes read are those at the ascending addresses. -/
theorem readBytes_eq (a n : Nat) : readBytes s a n = (List.range n).map fun j => readByte (a + j) s := by
  induction n generalizing a with
  | zero => rfl
  | succ n ih =>
    rw [readBytes, ih, List.range_succ_eq_map]
    simp [Function.comp_def, Nat.add_left_comm, Nat.add_comm]

theorem memRead_ok {a n : Nat} (h : n = 0 ∨ a + n ≤ 0x1000) :
    memRead a n s = .ok ((List.range n).map fun j => readByte (a + j) s) := by
  simp only [memRead, firstBeyond_eq, if_pos h, readBytes_eq]

theorem memRead_error {a n : Nat} (hn : n ≠ 0) (h : a + n > 0x1000) :
    memRead a n s = .error (.outOfBoundsAccess (BitVec.ofNat 16 (max a 0x1000))) := by
  simp only [memRead, firstBeyond_eq, if_neg (show ¬ (n = 0 ∨ a + n ≤ 0x1000) by omega)]

theorem memWrite_ok {a : Nat} {bs : List Byte} (h : bs.length = 0 ∨ a + bs.length ≤ 0x1000) :
    memWrite a bs s = .ok { s with mem := Memory.writeAll s.cfg s.mem a bs } := by
  simp only [memWrite, firstBeyond_eq, if_pos h]

theorem memWrite_error {a : Nat} {bs : List Byte} (hn : bs.length ≠ 0) (h : a + bs.length > 0x1000) :
    memWrite a bs s = .error (.outOfBoundsAccess (BitVec.ofNat 16 (max a 0x1000))) := by
  simp only [memWrite, firstBeyond_eq, if_neg (show ¬ (bs.length = 0 ∨ a + bs.length ≤ 0x1000) by omega)]

/-- A byte after ascending writes to a canonical memory. -/
theorem readByte_writeAll {s : State} (hw : Memory.wf s.cfg s.mem = true) {a : Nat} {bs : List Byte}
    (h : a + bs.length ≤ 0x1000) (k : Nat) :
    readByte k { s with mem := Memory.writeAll s.cfg s.mem a bs } =
      if a ≤ k then bs.getD (k - a) (readByte k s) else readByte k s :=
  Memory.read_writeAll hw h k

/-! ### Fetch -/

theorem fetch_ok {s : State} (h : s.pc.toNat ≤ 0xFFE) :
    fetch s = .ok (readByte s.pc.toNat s, readByte (s.pc.toNat + 1) s) := by
  simp only [fetch, memRead_ok s (a := s.pc.toNat) (n := 2) (by omega)]

theorem fetch_error {s : State} (h : s.pc.toNat > 0xFFE) :
    fetch s = .error (.outOfBoundsAccess (BitVec.ofNat 16 (max s.pc.toNat 0x1000))) := by
  simp only [fetch, memRead_error s (a := s.pc.toNat) (n := 2) (by omega) (by omega)]

/-! ### The call stack -/

theorem push_full {s : State} (a : Addr) (h : s.sp = s.cfg.stackDepth) : push a s = .error .stackOverflow := if_pos h

theorem push_ok {s : State} (a : Addr) (h : s.sp ≠ s.cfg.stackDepth) :
    push a s = .ok { s with stack := s.stack.set s.sp a, sp := s.sp + 1 } := if_neg h

theorem pop_empty {s : State} (h : s.sp = 0) : pop s = .error .stackUnderflow := if_pos h

theorem pop_ok {s : State} (h : s.sp ≠ 0) : pop s = .ok (stackTop s, { s with sp := s.sp - 1 }) := if_neg h

/-! ### The register block -/

theorem regsFrom_length (j n : Nat) : (regsFrom s j n).length = n := by
  induction n generalizing j with
  | zero => rfl
  | succ n ih => simp [regsFrom, ih]

theorem regsFrom_getElem? (j n k : Nat) (h : k < n) :
    (regsFrom s j n)[k]? = some (readReg (BitVec.ofNat 4 (j + k)) s) := by
  induction n generalizing j k with
  | zero => omega
  | succ n ih =>
    cases k with
    | zero => simp [regsFrom]
    | succ k => simp [regsFrom, ih (j + 1) k (by omega), Nat.add_assoc, Nat.add_comm 1 k]

@[simp] theorem regBlock_length (x : RegId) : (regBlock x s).length = x.toNat + 1 := regsFrom_length ..

/-- Writing registers in ascending order changes no other field. -/
theorem writeRegsFrom_eq (j : Nat) (bs : List Byte) :
    writeRegsFrom j bs s = { s with v := (writeRegsFrom j bs s).v } := by
  induction bs generalizing j s with
  | nil => rfl
  | cons b bs ih => exact (ih (writeReg (BitVec.ofNat 4 j) b s) (j + 1)).trans rfl

/-- What each register reads as after an ascending write of registers `j .. j + bs.length - 1`. -/
theorem readReg_writeRegsFrom (j : Nat) (bs : List Byte) (h : j + bs.length ≤ 16) (r : RegId) :
    readReg r (writeRegsFrom j bs s) =
      if j ≤ r.toNat then bs.getD (r.toNat - j) (readReg r s) else readReg r s := by
  induction bs generalizing j s with
  | nil => simp [writeRegsFrom]
  | cons b bs ih =>
    simp only [List.length_cons] at h
    have hj : (BitVec.ofNat 4 j).toNat = j := by simp; omega
    have heq : r = BitVec.ofNat 4 j ↔ r.toNat = j := by rw [← BitVec.toNat_inj, hj]
    rw [writeRegsFrom, ih _ _ (by omega), readReg_writeReg]
    simp only [heq]
    rcases Nat.lt_trichotomy r.toNat j with hr | hr | hr
    · rw [if_neg (by omega), if_neg (by omega), if_neg (by omega)]
    · simp [hr]
    · obtain ⟨d, hd⟩ := Nat.exists_eq_add_of_lt hr
      rw [if_pos (by omega), if_neg (by omega), if_pos (by omega)]
      simp [hd, show j + d + 1 - (j + 1) = d by omega, show j + d + 1 - j = d + 1 by omega]

/-! ### Digits and targets -/

@[simp] theorem decimalDigits_length (b : Byte) : (decimalDigits b).length = 3 := rfl

/-- The target of JP V0 is the exact sum; it never wraps. -/
theorem jumpV0Target_toNat (nnn : Addr) :
    (jumpV0Target nnn s).toNat = nnn.toNat + (readReg 0x0#4 s).toNat := by
  have h₁ := nnn.isLt
  have h₂ := (readReg 0x0#4 s).isLt
  simp only [jumpV0Target, BitVec.toNat_add, BitVec.truncate_eq_setWidth, BitVec.toNat_setWidth]
  omega

/-! ### Outcomes -/

@[simp] theorem onNext_next (f : State → State) : onNext f (.next s) = .next (f s) := rfl

theorem onNext_eq_next {f : State → State} {r : Result} {t : State} (h : onNext f r = .next t) :
    ∃ u, r = .next u ∧ f u = t := by
  cases r with
  | next u => exact ⟨u, rfl, by simpa [onNext] using h⟩
  | fault e => cases e
  | refused e => simp [onNext] at h

end Sys2Proof.Machine
end

