-- ==== Sys2Proof/Laws/PerInstr.lean ====
section
/-! SUPPORT. Per-instruction laws. Family OpcodeRow: an instruction's encoded word belongs to its row of
spec/opcode_table.json, whose "match" and "mask" `tableRow` holds, whatever its operands. -/

namespace Sys2Proof.Laws

/-- A word from its four nibbles. -/
def nibbleWord (n : Nibbles) : Word := packByte n.a n.b ++ packByte n.c n.d

/-- Masking a word masks its nibbles. -/
theorem nibbleWord_and (n m : Nibbles) :
    nibbleWord n &&& nibbleWord m = nibbleWord ⟨n.a &&& m.a, n.b &&& m.b, n.c &&& m.c, n.d &&& m.d⟩ := by
  have h (p q r t : Nibble) : packByte p q &&& packByte r t = packByte (p &&& r) (q &&& t) := BitVec.and_append
  exact (BitVec.and_append (x₁ := packByte n.a n.b) (x₂ := packByte m.a m.b)).trans (by rw [h, h]; rfl)

/-- The word of `i` belongs to its row of the opcode table. -/
def OpcodeRow.Statement (i : Instr) : Prop := encodeWord i &&& (tableRow i).mask = (tableRow i).bits


theorem OpcodeRow.sys (nnn : Addr) : OpcodeRow.Statement (.sys nnn) :=
  (nibbleWord_and (encodeNibbles (.sys nnn)) ⟨0xF#4, 0x0#4, 0x0#4, 0x0#4⟩).trans (by simp [encodeNibbles, formatA, nibbleWord, tableRow, packByte])

theorem OpcodeRow.cls : OpcodeRow.Statement .cls :=
  (nibbleWord_and (encodeNibbles .cls) ⟨0xF#4, 0xF#4, 0xF#4, 0xF#4⟩).trans (by simp [encodeNibbles, nibbleWord, tableRow, packByte])

theorem OpcodeRow.ret : OpcodeRow.Statement .ret :=
  (nibbleWord_and (encodeNibbles .ret) ⟨0xF#4, 0xF#4, 0xF#4, 0xF#4⟩).trans (by simp [encodeNibbles, nibbleWord, tableRow, packByte])

theorem OpcodeRow.jp (nnn : Addr) : OpcodeRow.Statement (.jp nnn) :=
  (nibbleWord_and (encodeNibbles (.jp nnn)) ⟨0xF#4, 0x0#4, 0x0#4, 0x0#4⟩).trans (by simp [encodeNibbles, formatA, nibbleWord, tableRow, packByte])

theorem OpcodeRow.call (nnn : Addr) : OpcodeRow.Statement (.call nnn) :=
  (nibbleWord_and (encodeNibbles (.call nnn)) ⟨0xF#4, 0x0#4, 0x0#4, 0x0#4⟩).trans (by simp [encodeNibbles, formatA, nibbleWord, tableRow, packByte])

theorem OpcodeRow.seVxKk (x : RegId) (kk : Byte) : OpcodeRow.Statement (.seVxKk x kk) :=
  (nibbleWord_and (encodeNibbles (.seVxKk x kk)) ⟨0xF#4, 0x0#4, 0x0#4, 0x0#4⟩).trans (by simp [encodeNibbles, formatXK, nibbleWord, tableRow, packByte])

theorem OpcodeRow.sneVxKk (x : RegId) (kk : Byte) : OpcodeRow.Statement (.sneVxKk x kk) :=
  (nibbleWord_and (encodeNibbles (.sneVxKk x kk)) ⟨0xF#4, 0x0#4, 0x0#4, 0x0#4⟩).trans (by simp [encodeNibbles, formatXK, nibbleWord, tableRow, packByte])

theorem OpcodeRow.seVxVy (x y : RegId) : OpcodeRow.Statement (.seVxVy x y) :=
  (nibbleWord_and (encodeNibbles (.seVxVy x y)) ⟨0xF#4, 0x0#4, 0x0#4, 0xF#4⟩).trans (by simp [encodeNibbles, nibbleWord, tableRow, packByte])

theorem OpcodeRow.ldVxKk (x : RegId) (kk : Byte) : OpcodeRow.Statement (.ldVxKk x kk) :=
  (nibbleWord_and (encodeNibbles (.ldVxKk x kk)) ⟨0xF#4, 0x0#4, 0x0#4, 0x0#4⟩).trans (by simp [encodeNibbles, formatXK, nibbleWord, tableRow, packByte])

theorem OpcodeRow.addVxKk (x : RegId) (kk : Byte) : OpcodeRow.Statement (.addVxKk x kk) :=
  (nibbleWord_and (encodeNibbles (.addVxKk x kk)) ⟨0xF#4, 0x0#4, 0x0#4, 0x0#4⟩).trans (by simp [encodeNibbles, formatXK, nibbleWord, tableRow, packByte])

theorem OpcodeRow.ldVxVy (x y : RegId) : OpcodeRow.Statement (.ldVxVy x y) :=
  (nibbleWord_and (encodeNibbles (.ldVxVy x y)) ⟨0xF#4, 0x0#4, 0x0#4, 0xF#4⟩).trans (by simp [encodeNibbles, nibbleWord, tableRow, packByte])

theorem OpcodeRow.orVxVy (x y : RegId) : OpcodeRow.Statement (.orVxVy x y) :=
  (nibbleWord_and (encodeNibbles (.orVxVy x y)) ⟨0xF#4, 0x0#4, 0x0#4, 0xF#4⟩).trans (by simp [encodeNibbles, nibbleWord, tableRow, packByte])

theorem OpcodeRow.andVxVy (x y : RegId) : OpcodeRow.Statement (.andVxVy x y) :=
  (nibbleWord_and (encodeNibbles (.andVxVy x y)) ⟨0xF#4, 0x0#4, 0x0#4, 0xF#4⟩).trans (by simp [encodeNibbles, nibbleWord, tableRow, packByte])

theorem OpcodeRow.xorVxVy (x y : RegId) : OpcodeRow.Statement (.xorVxVy x y) :=
  (nibbleWord_and (encodeNibbles (.xorVxVy x y)) ⟨0xF#4, 0x0#4, 0x0#4, 0xF#4⟩).trans (by simp [encodeNibbles, nibbleWord, tableRow, packByte])

theorem OpcodeRow.addVxVy (x y : RegId) : OpcodeRow.Statement (.addVxVy x y) :=
  (nibbleWord_and (encodeNibbles (.addVxVy x y)) ⟨0xF#4, 0x0#4, 0x0#4, 0xF#4⟩).trans (by simp [encodeNibbles, nibbleWord, tableRow, packByte])

theorem OpcodeRow.sub (x y : RegId) : OpcodeRow.Statement (.sub x y) :=
  (nibbleWord_and (encodeNibbles (.sub x y)) ⟨0xF#4, 0x0#4, 0x0#4, 0xF#4⟩).trans (by simp [encodeNibbles, nibbleWord, tableRow, packByte])

theorem OpcodeRow.shr (x y : RegId) : OpcodeRow.Statement (.shr x y) :=
  (nibbleWord_and (encodeNibbles (.shr x y)) ⟨0xF#4, 0x0#4, 0x0#4, 0xF#4⟩).trans (by simp [encodeNibbles, nibbleWord, tableRow, packByte])

theorem OpcodeRow.subn (x y : RegId) : OpcodeRow.Statement (.subn x y) :=
  (nibbleWord_and (encodeNibbles (.subn x y)) ⟨0xF#4, 0x0#4, 0x0#4, 0xF#4⟩).trans (by simp [encodeNibbles, nibbleWord, tableRow, packByte])

theorem OpcodeRow.shl (x y : RegId) : OpcodeRow.Statement (.shl x y) :=
  (nibbleWord_and (encodeNibbles (.shl x y)) ⟨0xF#4, 0x0#4, 0x0#4, 0xF#4⟩).trans (by simp [encodeNibbles, nibbleWord, tableRow, packByte])

theorem OpcodeRow.sneVxVy (x y : RegId) : OpcodeRow.Statement (.sneVxVy x y) :=
  (nibbleWord_and (encodeNibbles (.sneVxVy x y)) ⟨0xF#4, 0x0#4, 0x0#4, 0xF#4⟩).trans (by simp [encodeNibbles, nibbleWord, tableRow, packByte])

theorem OpcodeRow.ldINnn (nnn : Addr) : OpcodeRow.Statement (.ldINnn nnn) :=
  (nibbleWord_and (encodeNibbles (.ldINnn nnn)) ⟨0xF#4, 0x0#4, 0x0#4, 0x0#4⟩).trans (by simp [encodeNibbles, formatA, nibbleWord, tableRow, packByte])

theorem OpcodeRow.jpV0 (nnn : Addr) : OpcodeRow.Statement (.jpV0 nnn) :=
  (nibbleWord_and (encodeNibbles (.jpV0 nnn)) ⟨0xF#4, 0x0#4, 0x0#4, 0x0#4⟩).trans (by simp [encodeNibbles, formatA, nibbleWord, tableRow, packByte])

theorem OpcodeRow.rnd (x : RegId) (kk : Byte) : OpcodeRow.Statement (.rnd x kk) :=
  (nibbleWord_and (encodeNibbles (.rnd x kk)) ⟨0xF#4, 0x0#4, 0x0#4, 0x0#4⟩).trans (by simp [encodeNibbles, formatXK, nibbleWord, tableRow, packByte])

theorem OpcodeRow.drw (x y : RegId) (n : Nibble) : OpcodeRow.Statement (.drw x y n) :=
  (nibbleWord_and (encodeNibbles (.drw x y n)) ⟨0xF#4, 0x0#4, 0x0#4, 0x0#4⟩).trans (by simp [encodeNibbles, nibbleWord, tableRow, packByte])

theorem OpcodeRow.skp (x : RegId) : OpcodeRow.Statement (.skp x) :=
  (nibbleWord_and (encodeNibbles (.skp x)) ⟨0xF#4, 0x0#4, 0xF#4, 0xF#4⟩).trans (by simp [encodeNibbles, nibbleWord, tableRow, packByte])

theorem OpcodeRow.sknp (x : RegId) : OpcodeRow.Statement (.sknp x) :=
  (nibbleWord_and (encodeNibbles (.sknp x)) ⟨0xF#4, 0x0#4, 0xF#4, 0xF#4⟩).trans (by simp [encodeNibbles, nibbleWord, tableRow, packByte])

theorem OpcodeRow.ldVxDt (x : RegId) : OpcodeRow.Statement (.ldVxDt x) :=
  (nibbleWord_and (encodeNibbles (.ldVxDt x)) ⟨0xF#4, 0x0#4, 0xF#4, 0xF#4⟩).trans (by simp [encodeNibbles, nibbleWord, tableRow, packByte])

theorem OpcodeRow.ldVxK (x : RegId) : OpcodeRow.Statement (.ldVxK x) :=
  (nibbleWord_and (encodeNibbles (.ldVxK x)) ⟨0xF#4, 0x0#4, 0xF#4, 0xF#4⟩).trans (by simp [encodeNibbles, nibbleWord, tableRow, packByte])

theorem OpcodeRow.ldDtVx (x : RegId) : OpcodeRow.Statement (.ldDtVx x) :=
  (nibbleWord_and (encodeNibbles (.ldDtVx x)) ⟨0xF#4, 0x0#4, 0xF#4, 0xF#4⟩).trans (by simp [encodeNibbles, nibbleWord, tableRow, packByte])

theorem OpcodeRow.ldStVx (x : RegId) : OpcodeRow.Statement (.ldStVx x) :=
  (nibbleWord_and (encodeNibbles (.ldStVx x)) ⟨0xF#4, 0x0#4, 0xF#4, 0xF#4⟩).trans (by simp [encodeNibbles, nibbleWord, tableRow, packByte])

theorem OpcodeRow.addIVx (x : RegId) : OpcodeRow.Statement (.addIVx x) :=
  (nibbleWord_and (encodeNibbles (.addIVx x)) ⟨0xF#4, 0x0#4, 0xF#4, 0xF#4⟩).trans (by simp [encodeNibbles, nibbleWord, tableRow, packByte])

theorem OpcodeRow.ldFVx (x : RegId) : OpcodeRow.Statement (.ldFVx x) :=
  (nibbleWord_and (encodeNibbles (.ldFVx x)) ⟨0xF#4, 0x0#4, 0xF#4, 0xF#4⟩).trans (by simp [encodeNibbles, nibbleWord, tableRow, packByte])

theorem OpcodeRow.ldBVx (x : RegId) : OpcodeRow.Statement (.ldBVx x) :=
  (nibbleWord_and (encodeNibbles (.ldBVx x)) ⟨0xF#4, 0x0#4, 0xF#4, 0xF#4⟩).trans (by simp [encodeNibbles, nibbleWord, tableRow, packByte])

theorem OpcodeRow.ldIVx (x : RegId) : OpcodeRow.Statement (.ldIVx x) :=
  (nibbleWord_and (encodeNibbles (.ldIVx x)) ⟨0xF#4, 0x0#4, 0xF#4, 0xF#4⟩).trans (by simp [encodeNibbles, nibbleWord, tableRow, packByte])

theorem OpcodeRow.ldVxI (x : RegId) : OpcodeRow.Statement (.ldVxI x) :=
  (nibbleWord_and (encodeNibbles (.ldVxI x)) ⟨0xF#4, 0x0#4, 0xF#4, 0xF#4⟩).trans (by simp [encodeNibbles, nibbleWord, tableRow, packByte])

end Sys2Proof.Laws
end

