-- ==== Sys2Proof/Laws/Step.lean ====
section
/-! SUPPORT. What an instruction and an iteration can do, said once: an instruction takes an error in the state it began in,
or completes with the effects every instruction keeps to; an iteration is one of five cases. The provers derive the
invariants from these instead of unfolding `exec` and `step`. -/

namespace Sys2Proof.Machine

/-- A frame from its seven parts, each either listed as changed or the same. -/
theorem sameBut_of {ps : List Part} {s t : State} (hc : t.cfg = s.cfg) (hv : .regs ∈ ps ∨ t.v = s.v)
    (hi : .index ∈ ps ∨ t.i = s.i) (hk : .stack ∈ ps ∨ t.sp = s.sp ∧ t.stack = s.stack)
    (ht : .timers ∈ ps ∨ t.dt = s.dt ∧ t.st = s.st ∧ t.phase = s.phase)
    (hs : .status ∈ ps ∨ t.status = s.status) (hm : .memory ∈ ps ∨ ∀ a, readByte a t = readByte a s)
    (hp : .ports ∈ ps ∨ t.inputs = s.inputs ∧ t.draws = s.draws ∧ t.requests = s.requests) : SameBut ps s t := by
  refine ⟨hc, fun p hp => ?_⟩
  cases p <;> simp_all [Part.Same]

/-- What every completed instruction keeps to, whichever it is. -/
structure Completed (i : Instr) (s t : State) : Prop where
  cfg : t.cfg = s.cfg
  phase : t.phase = s.phase
  status : t.status = s.status ∨ ∃ x, i = .ldVxK x ∧ t = setStatus (.awaitingKey x) s
  stack_length : t.stack.length = s.stack.length
  sp_le : s.sp ≤ s.cfg.stackDepth → t.sp ≤ s.cfg.stackDepth
  mem_wf : Memory.wf s.cfg s.mem = true → Memory.wf s.cfg t.mem = true
  pc_le : s.pc.toNat ≤ 0xFFE → t.pc.toNat ≤ 0x10FE

/-- A jump target of 12 bits lies below the bound of the pc. -/
theorem jumpTo_pc_le (a : Addr) (s : State) : (jumpTo a s).pc.toNat ≤ 0x10FE := by
  have := a.isLt
  simp only [jumpTo_pc, BitVec.truncate_eq_setWidth, BitVec.toNat_setWidth]
  omega

theorem advance_pc_le {s : State} (h : s.pc.toNat ≤ 0xFFE) : (s.pc + 2#16).toNat ≤ 0x10FE := by
  simp only [BitVec.toNat_add, BitVec.toNat_ofNat]; omega

theorem skip_pc_le (c : Bool) {s : State} (h : s.pc.toNat ≤ 0xFFE) :
    (s.pc + if c then 4#16 else 2#16).toNat ≤ 0x10FE := by
  cases c <;> simp only [BitVec.toNat_add] <;> simp <;> omega

/-- A plain instruction, which changes only registers, I, DT, ST, ports and the pc. -/
theorem completed_of_same {i : Instr} {s t : State} (h₁ : t.cfg = s.cfg) (h₂ : t.phase = s.phase)
    (h₃ : t.status = s.status) (h₄ : t.stack = s.stack) (h₅ : t.sp = s.sp) (h₆ : t.mem = s.mem)
    (h₇ : s.pc.toNat ≤ 0xFFE → t.pc.toNat ≤ 0x10FE) : Completed i s t :=
  ⟨h₁, h₂, .inl h₃, by rw [h₄], by rw [h₅]; exact id, by rw [h₆]; exact id, h₇⟩

/-- Advancing after a memory write that was checked. -/
theorem completed_of_memWrite {i : Instr} {s t : State} {a : Nat} {bs : List Byte} (h : memWrite a bs s = .ok t) :
    Completed i s (advance t) := by
  by_cases hb : bs.length = 0 ∨ a + bs.length ≤ 0x1000
  · rw [memWrite_ok s hb, Except.ok.injEq] at h
    subst h
    refine ⟨rfl, rfl, .inl rfl, rfl, id, fun hw => ?_, advance_pc_le⟩
    rcases hb with hb | hb
    · rw [List.length_eq_zero_iff.mp hb]; exact hw
    · exact Memory.wf_writeAll hw hb
  · rw [memWrite_error s (by omega) (by omega)] at h
    cases h

/-- The inversion lemma of `exec`: an error in the state the instruction began in, or a completion. -/
theorem exec_cases (i : Instr) (s : State) :
    (∃ e, exec i s = .next (takeError e s)) ∨ (∃ t, exec i s = .next t ∧ Completed i s t) := by
  cases i with
  | sys nnn =>
    simp only [exec, execSys]
    cases s.cfg.sysPolicy
    · exact .inl ⟨_, rfl⟩
    · exact .inr ⟨_, rfl, completed_of_same rfl rfl rfl rfl rfl rfl advance_pc_le⟩
  | ret =>
    simp only [exec, execRet]
    by_cases h : s.sp = 0
    · rw [pop_empty h]; exact .inl ⟨_, rfl⟩
    · rw [pop_ok h]
      exact .inr ⟨_, rfl, rfl, rfl, .inl rfl, rfl, fun hl => (Nat.sub_le s.sp 1).trans hl, id, fun _ => jumpTo_pc_le _ _⟩
  | call nnn =>
    simp only [exec, execCall]
    split
    · exact .inl ⟨_, rfl⟩
    · rename_i h
      split
      · exact .inl ⟨_, rfl⟩
      · rw [push_ok _ h]
        exact .inr ⟨_, rfl, rfl, rfl, .inl rfl, by simp, fun hl => Nat.lt_of_le_of_ne hl h, id, fun _ => jumpTo_pc_le _ _⟩
  | addIVx x =>
    simp only [exec, execAddIVx]
    split
    · exact .inl ⟨_, rfl⟩
    · exact .inr ⟨_, rfl, completed_of_same rfl rfl rfl rfl rfl rfl advance_pc_le⟩
  | ldFVx x =>
    simp only [exec, execLdFVx]
    split
    · exact .inl ⟨_, rfl⟩
    · exact .inr ⟨_, rfl, completed_of_same rfl rfl rfl rfl rfl rfl advance_pc_le⟩
  | drw x y n =>
    simp only [exec, execDrw]
    split
    · exact .inr ⟨_, rfl, completed_of_same rfl rfl rfl rfl rfl rfl advance_pc_le⟩
    · exact .inl ⟨_, rfl⟩
  | ldBVx x =>
    simp only [exec, execLdBVx]
    split
    · rename_i h; exact .inr ⟨_, rfl, completed_of_memWrite h⟩
    · exact .inl ⟨_, rfl⟩
  | ldIVx x =>
    simp only [exec, execLdIVx]
    split
    · rename_i h; exact .inr ⟨_, rfl, completed_of_memWrite h⟩
    · exact .inl ⟨_, rfl⟩
  | ldVxI x =>
    simp only [exec, execLdVxI]
    split
    · rw [writeRegsFrom_eq]
      exact .inr ⟨_, rfl, completed_of_same rfl rfl rfl rfl rfl rfl advance_pc_le⟩
    · exact .inl ⟨_, rfl⟩
  | ldVxK x => exact .inr ⟨_, rfl, rfl, rfl, .inr ⟨x, rfl, rfl⟩, rfl, id, id, fun h => h.trans (by omega)⟩
  | jp nnn => exact .inr ⟨_, rfl, completed_of_same rfl rfl rfl rfl rfl rfl fun _ => jumpTo_pc_le _ _⟩
  | jpV0 nnn =>
    refine .inr ⟨_, rfl, completed_of_same rfl rfl rfl rfl rfl rfl fun _ => ?_⟩
    have h₁ := nnn.isLt
    have h₂ := (readReg 0x0#4 s).isLt
    rw [setPc_pc, jumpV0Target_toNat]
    omega
  | seVxKk | sneVxKk | seVxVy | sneVxVy | skp | sknp =>
    exact .inr ⟨_, rfl, completed_of_same rfl rfl rfl rfl rfl rfl (skip_pc_le _)⟩
  | cls | ldVxKk | addVxKk | ldVxVy | orVxVy | andVxVy | xorVxVy | addVxVy | sub | shr | subn | shl | ldINnn | rnd
  | ldVxDt | ldDtVx | ldStVx =>
    exact .inr ⟨_, rfl, completed_of_same rfl rfl rfl rfl rfl rfl advance_pc_le⟩

/-- Every meaning answers a next state. -/
theorem exec_next (i : Instr) (s : State) : ∃ t, exec i s = .next t := by
  obtain ⟨e, h⟩ | ⟨t, h, -⟩ := exec_cases i s
  · exact ⟨_, h⟩
  · exact ⟨_, h⟩

@[simp] theorem isHalted_takeError (e : CoreError) (s : State) : (takeError e s).isHalted = true := rfl

/-- A halted core is one whose status is Halted. -/
theorem isHalted_iff (s : State) : s.isHalted = true ↔ ∃ r, s.status = .halted r := by
  cases h : s.status <;> simp [State.isHalted, h]

theorem finishIteration_halted {s : State} (h : s.isHalted = true) : finishIteration s = s := by
  simp [finishIteration, h]

theorem finishIteration_live {s : State} (h : s.isHalted = false) :
    finishIteration s = timerAdvance (elapsedAnswer s) (takeElapsed s) := by
  simp [finishIteration, h]

/-- The inversion lemma of `step`: what one iteration of a state is, by its status and what is in memory at the pc. -/
theorem step_cases (s : State) :
    (∃ r, s.status = .halted r ∧ step s = .next s) ∨
    (∃ x, s.status = .awaitingKey x ∧ step s = .next (finishIteration (keyWaitPoll x s))) ∨
    (s.status = .running ∧ s.pc.toNat > 0xFFE ∧
      step s = .next (takeError (.outOfBoundsAccess (BitVec.ofNat 16 (max s.pc.toNat 0x1000))) s)) ∨
    (∃ w, s.status = .running ∧ s.pc.toNat ≤ 0xFFE ∧
      decode (readByte s.pc.toNat s) (readByte (s.pc.toNat + 1) s) = .error w ∧
      step s = .next (takeError (.decodeError w.a w.b w.c w.d) s)) ∨
    (∃ i t, s.status = .running ∧ s.InstrAtPc i ∧ exec i s = .next t ∧ step s = .next (finishIteration t)) := by
  cases hs : s.status with
  | halted r =>
    refine .inl ⟨r, rfl, ?_⟩
    simp [step, activity, hs, finishIteration, State.isHalted]
  | awaitingKey x => exact .inr (.inl ⟨x, rfl, by simp [step, activity, hs]⟩)
  | running =>
    by_cases hp : s.pc.toNat ≤ 0xFFE
    · cases hd : decode (readByte s.pc.toNat s) (readByte (s.pc.toNat + 1) s) with
      | error w =>
        refine .inr (.inr (.inr (.inl ⟨w, rfl, hp, rfl, ?_⟩)))
        simp [step, activity, hs, runInstruction, fetch_ok hp, hd, finishIteration]
      | ok i =>
        obtain ⟨t, ht⟩ := exec_next i s
        refine .inr (.inr (.inr (.inr ⟨i, t, rfl, ⟨hp, hd⟩, ht, ?_⟩)))
        simp [step, activity, hs, runInstruction, fetch_ok hp, hd, ht]
    · have hp' : s.pc.toNat > 0xFFE := by omega
      refine .inr (.inr (.inl ⟨rfl, hp', ?_⟩))
      simp [step, activity, hs, runInstruction, fetch_error hp', finishIteration]

/-- The step of a running core whose instruction is in memory at the pc. -/
theorem step_of_exec {s t : State} {i : Instr} (hs : s.status = .running) (hi : s.InstrAtPc i)
    (h : exec i s = .next t) : step s = .next (finishIteration t) := by
  simp [step, activity, hs, runInstruction, fetch_ok hi.1, hi.2, h]

end Sys2Proof.Machine
end

