-- ==== Sys2Proof/Laws/Text.lean ====
section
/-! SUPPORT. Reading each piece of a text is the inverse of rendering it, both ways; and splitting a line into its mnemonic
and operands is the inverse of putting it together. -/

namespace Sys2Proof.Machine

/-! ### Numbers and names -/

@[simp] theorem readDigit_hexDigit (n : Nibble) : readDigit (hexDigit n) = some n := by
  revert n; decide

/-- A digit that is read is the rendering of its value. -/
theorem hexDigit_of_readDigit {c : Char} {n : Nibble} (h : readDigit c = some n) : hexDigit n = c := by
  unfold readDigit at h
  split at h <;> first | (cases h; decide) | cases h

theorem readCount_eq_some {cs : List Char} {n : Nibble} : readCount cs = some n ↔ cs = [hexDigit n] := by
  refine ⟨fun h => ?_, fun h => by subst h; simp [readCount]⟩
  unfold readCount at h
  split at h
  · rw [hexDigit_of_readDigit h]
  · cases h

theorem readRegName_eq_some {cs : List Char} {x : RegId} : readRegName cs = some x ↔ cs = regName x := by
  refine ⟨fun h => ?_, fun h => by subst h; simp [readRegName, regName]⟩
  unfold readRegName at h
  split at h
  · rw [regName, hexDigit_of_readDigit h]
  · cases h

@[simp] theorem readRegName_regName (x : RegId) : readRegName (regName x) = some x := readRegName_eq_some.2 rfl

theorem readHexByte_eq_some {cs : List Char} {b : Byte} : readHexByte cs = some b ↔ cs = hexByte b := by
  refine ⟨fun h => ?_, fun h => by subst h; simp [readHexByte, hexByte]⟩
  unfold readHexByte at h
  split at h
  · simp only [Option.bind_eq_some_iff, Option.map_eq_some_iff] at h
    obtain ⟨p, hp, q, hq, rfl⟩ := h
    simp [hexByte, hexDigit_of_readDigit hp, hexDigit_of_readDigit hq]
  · cases h

@[simp] theorem readHexByte_hexByte (b : Byte) : readHexByte (hexByte b) = some b := readHexByte_eq_some.2 rfl

theorem readHexAddr_eq_some {cs : List Char} {a : Addr} : readHexAddr cs = some a ↔ cs = hexAddr a := by
  refine ⟨fun h => ?_, fun h => by subst h; simp [readHexAddr, hexAddr]⟩
  unfold readHexAddr at h
  split at h
  · simp only [Option.bind_eq_some_iff, Option.map_eq_some_iff] at h
    obtain ⟨p, hp, q, hq, r, hr, rfl⟩ := h
    simp [hexAddr, hexDigit_of_readDigit hp, hexDigit_of_readDigit hq, hexDigit_of_readDigit hr]
  · cases h

@[simp] theorem readHexAddr_hexAddr (a : Addr) : readHexAddr (hexAddr a) = some a := readHexAddr_eq_some.2 rfl

theorem readName_eq_some {name : String} {cs : List Char} {u : Unit} : readName name cs = some u ↔ cs = name.toList := by
  unfold readName; split <;> simp [*]

/-! ### A line and its pieces -/

/-- The operand part of a text, as `textLine` has it after the space. -/
def joinOperands (ops : List (List Char)) : List Char :=
  match ops with
  | [] => []
  | o :: rest => o ++ rest.flatMap fun p => ',' :: ' ' :: p

theorem joinOperands_consToFirst (c : Char) (ops : List (List Char)) :
    joinOperands (consToFirst c ops) = c :: joinOperands ops := by
  cases ops <;> simp [consToFirst, joinOperands]

theorem splitOperands_ne_nil (cs : List Char) : splitOperands cs ≠ [] := by
  unfold splitOperands
  split
  · simp
  · simp
  · unfold consToFirst; split <;> simp

/-- No character is lost in splitting. -/
theorem joinOperands_splitOperands (cs : List Char) : joinOperands (splitOperands cs) = cs := by
  induction cs using splitOperands.induct with
  | case1 => rfl
  | case2 cs ih =>
    rw [splitOperands]
    cases h : splitOperands cs with
    | nil => exact absurd h (splitOperands_ne_nil cs)
    | cons o os => rw [h] at ih; simp [joinOperands] at ih ⊢; exact ih
  | case3 c cs h ih => rw [splitOperands.eq_3 c cs h, joinOperands_consToFirst, ih]

/-- Operands without a comma are found again. -/
theorem splitOperands_joinOperands {o : List Char} {rest : List (List Char)} (h : ∀ p ∈ o :: rest, ',' ∉ p) :
    splitOperands (joinOperands (o :: rest)) = o :: rest := by
  induction rest generalizing o with
  | nil =>
    induction o with
    | nil => rfl
    | cons c o ih =>
      simp only [joinOperands, List.flatMap_nil, List.append_nil, forall_eq, List.mem_cons,
        List.not_mem_nil, or_false, not_or] at h ih ⊢
      rw [splitOperands.eq_3 c o fun r hc _ => h.1 hc.symm, ih h.2]; rfl
  | cons p rest ihr =>
    induction o with
    | nil =>
      have := ihr (o := p) fun q hq => h q (by simp at hq ⊢; tauto)
      simpa [joinOperands, splitOperands] using this
    | cons c o ih =>
      have hc : ',' ∉ c :: o := h _ (by simp)
      simp only [List.mem_cons, not_or] at hc
      have := ih fun q hq => by
        rcases List.mem_cons.mp hq with rfl | hq
        · exact hc.2
        · exact h q (by simp at hq ⊢; tauto)
      simp only [joinOperands, List.cons_append] at this ⊢
      rw [splitOperands.eq_3 c _ fun r hc' _ => hc.1 hc'.symm, this]; rfl

theorem textLine_eq (mnemonic : String) (ops : List (List Char)) :
    textLine mnemonic ops = mnemonic.toList ++ (if ops = [] then [] else ' ' :: joinOperands ops) := by
  cases ops <;> simp [textLine, joinOperands]

/-- Splitting a rendered line gives its mnemonic and its operands. -/
theorem splitLine_textLine {mnemonic : String} {ops : List (List Char)} (hm : ' ' ∉ mnemonic.toList)
    (ho : ∀ p ∈ ops, ',' ∉ p) : splitLine (textLine mnemonic ops) = (mnemonic.toList, ops) := by
  rw [textLine_eq]
  generalize mnemonic.toList = m at hm
  induction m with
  | nil =>
    cases ops with
    | nil => rfl
    | cons o rest => simp [splitLine, splitOperands_joinOperands ho]
  | cons c m ih =>
    simp only [List.mem_cons, not_or] at hm
    simp [splitLine, Ne.symm hm.1, ih hm.2]

/-- A line is the rendering of the mnemonic and the operands it splits into. -/
theorem textLine_of_splitLine {cs : List Char} {mnemonic : String} {ops : List (List Char)}
    (h : splitLine cs = (mnemonic.toList, ops)) : textLine mnemonic ops = cs := by
  rw [textLine_eq]
  generalize mnemonic.toList = m at h
  induction cs generalizing m with
  | nil => cases h; rfl
  | cons c cs ih =>
    by_cases hc : c = ' '
    · simp only [splitLine, if_pos hc, Prod.mk.injEq] at h
      obtain ⟨rfl, rfl⟩ := h
      simp [splitOperands_ne_nil, joinOperands_splitOperands, hc]
    · simp only [splitLine, if_neg hc, Prod.map, id, Prod.mk.injEq] at h
      obtain ⟨rfl, h⟩ := h
      simpa using ih _ (Prod.ext rfl h)

theorem hexDigit_ne_comma (n : Nibble) : hexDigit n ≠ ',' := by revert n; decide

theorem comma_not_mem_regName (x : RegId) : ',' ∉ regName x := by simp [regName, (hexDigit_ne_comma _).symm]
theorem comma_not_mem_hexByte (b : Byte) : ',' ∉ hexByte b := by simp [hexByte, (hexDigit_ne_comma _).symm]
theorem comma_not_mem_hexAddr (a : Addr) : ',' ∉ hexAddr a := by simp [hexAddr, (hexDigit_ne_comma _).symm]

/-! ### The forms of a mnemonic -/

theorem readNone_eq_some {i j : Instr} {ops : List (List Char)} : readNone i ops = some j ↔ ops = [] ∧ i = j := by
  unfold readNone; split <;> simp_all

theorem readOne_eq_some {α : Type} {f : List Char → Option α} {mk : α → Instr} {ops : List (List Char)} {j : Instr} :
    readOne f mk ops = some j ↔ ∃ o a, ops = [o] ∧ f o = some a ∧ mk a = j := by
  unfold readOne; split <;> simp_all

theorem readTwo_eq_some {α β : Type} {f : List Char → Option α} {g : List Char → Option β} {mk : α → β → Instr}
    {ops : List (List Char)} {j : Instr} :
    readTwo f g mk ops = some j ↔ ∃ o p a b, ops = [o, p] ∧ f o = some a ∧ g p = some b ∧ mk a b = j := by
  unfold readTwo; split
  · simp only [Option.bind_eq_some_iff, Option.map_eq_some_iff]
    constructor
    · rintro ⟨a, ha, b, hb, rfl⟩; exact ⟨_, _, a, b, rfl, ha, hb, rfl⟩
    · rintro ⟨o, p, a, b, e, ha, hb, rfl⟩
      cases e
      exact ⟨a, ha, b, hb, rfl⟩
  · rename_i h
    exact ⟨fun e => (nomatch e), fun ⟨o, p, _, _, e, _⟩ => absurd e (h o p)⟩

theorem readDrw_eq_some {ops : List (List Char)} {j : Instr} :
    readDrw ops = some j ↔ ∃ x y n, ops = [regName x, regName y, [hexDigit n]] ∧ .drw x y n = j := by
  unfold readDrw; split
  · simp only [Option.bind_eq_some_iff, Option.map_eq_some_iff, readRegName_eq_some, readCount_eq_some]
    constructor
    · rintro ⟨x, rfl, y, rfl, n, rfl, rfl⟩; exact ⟨x, y, n, rfl, rfl⟩
    · rintro ⟨x, y, n, e, rfl⟩
      cases e
      exact ⟨x, rfl, y, rfl, n, rfl, rfl⟩
  · rename_i h
    exact ⟨fun e => (nomatch e), fun ⟨_, _, _, e, _⟩ => absurd e (h _ _ _)⟩

/-- Reading a line, as its definition has it: the first form of the line's mnemonic that reads its operands. -/
theorem parseChars_eq (cs : List Char) :
    parseChars cs = formReaders.findSome? fun form =>
      if (splitLine cs).1 = form.1.toList then (form.2 (splitLine cs).2).filter Instr.wf else none := rfl

/-- What is read from a line was read by some form of its mnemonic. -/
theorem form_of_parseChars {cs : List Char} {i : Instr} (h : parseChars cs = some i) :
    i.wf = true ∧ ∃ form ∈ formReaders, (splitLine cs).1 = form.1.toList ∧ form.2 (splitLine cs).2 = some i := by
  obtain ⟨form, hm, hf⟩ := List.exists_of_findSome?_eq_some h
  split at hf
  · rw [Option.filter_eq_some_iff] at hf
    exact ⟨hf.2, form, hm, by assumption, hf.1⟩
  · cases hf

end Sys2Proof.Machine
end

