-- ==== Sys2Proof/Tests/Slice0.lean ====
section
/-! SUPPORT. The model's own tests. Expected results come from spec/95_test_vectors.md (the vector's number stands at each
test) or are worked by hand from the rule cited; and, for every statement with hypotheses, a state that meets them. -/

namespace Sys2Proof.Tests

open Sys2Proof.Machine

/-! ## Well-formedness: the one check, at both words it refuses -/

theorem test_wf_refuses_sys_0E0 : (Instr.sys 0x0E0#12).wf = false := by decide
theorem test_wf_refuses_sys_0EE : (Instr.sys 0x0EE#12).wf = false := by decide
theorem test_wf_accepts_its_neighbours :
    (Instr.sys 0x0E1#12).wf = true ∧ (Instr.sys 0x000#12).wf = true ∧ Instr.cls.wf = true := by decide

/-- The parameter ranges of R9, at both bounds. -/
theorem test_config_ranges :
    defaultConfig.wf = true ∧ Config.wf { defaultConfig with stackDepth := 0 } = false ∧
    Config.wf { defaultConfig with fontBase := 0x1B0#12 } = true ∧
    Config.wf { defaultConfig with fontBase := 0x1B1#12 } = false := by decide

/-! ## Decoding: for every row a word written out from its encoding in R43 and R44 -/

theorem test_decode_family_0 :
    decodeWord 0x0123#16 = .ok (.sys 0x123#12) ∧ decodeWord 0x0000#16 = .ok (.sys 0x000#12) ∧
    decodeWord 0x00E1#16 = .ok (.sys 0x0E1#12) ∧ decodeWord 0x00E0#16 = .ok .cls ∧
    decodeWord 0x00EE#16 = .ok .ret ∧ decodeWord 0x01E0#16 = .ok (.sys 0x1E0#12) := by decide
theorem test_decode_addresses :
    decodeWord 0x1ABC#16 = .ok (.jp 0xABC#12) ∧ decodeWord 0x2300#16 = .ok (.call 0x300#12) ∧
    decodeWord 0xA2F0#16 = .ok (.ldINnn 0x2F0#12) ∧ decodeWord 0xBFFF#16 = .ok (.jpV0 0xFFF#12) := by decide
theorem test_decode_immediates :
    decodeWord 0x3142#16 = .ok (.seVxKk 0x1#4 0x42#8) ∧ decodeWord 0x4142#16 = .ok (.sneVxKk 0x1#4 0x42#8) ∧
    decodeWord 0x6123#16 = .ok (.ldVxKk 0x1#4 0x23#8) ∧ decodeWord 0x7F01#16 = .ok (.addVxKk 0xF#4 0x01#8) ∧
    decodeWord 0xC10F#16 = .ok (.rnd 0x1#4 0x0F#8) := by decide
theorem test_decode_alu :
    decodeWord 0x8120#16 = .ok (.ldVxVy 0x1#4 0x2#4) ∧ decodeWord 0x8121#16 = .ok (.orVxVy 0x1#4 0x2#4) ∧
    decodeWord 0x8122#16 = .ok (.andVxVy 0x1#4 0x2#4) ∧ decodeWord 0x8123#16 = .ok (.xorVxVy 0x1#4 0x2#4) ∧
    decodeWord 0x8124#16 = .ok (.addVxVy 0x1#4 0x2#4) ∧ decodeWord 0x8125#16 = .ok (.sub 0x1#4 0x2#4) ∧
    decodeWord 0x8AB6#16 = .ok (.shr 0xA#4 0xB#4) ∧ decodeWord 0x8127#16 = .ok (.subn 0x1#4 0x2#4) ∧
    decodeWord 0x8F1E#16 = .ok (.shl 0xF#4 0x1#4) := by decide
theorem test_decode_register_pairs :
    decodeWord 0x5120#16 = .ok (.seVxVy 0x1#4 0x2#4) ∧ decodeWord 0x9120#16 = .ok (.sneVxVy 0x1#4 0x2#4) ∧
    decodeWord 0xD12F#16 = .ok (.drw 0x1#4 0x2#4 0xF#4) := by decide
theorem test_decode_families_E_and_F :
    decodeWord 0xE19E#16 = .ok (.skp 0x1#4) ∧ decodeWord 0xE1A1#16 = .ok (.sknp 0x1#4) ∧
    decodeWord 0xF507#16 = .ok (.ldVxDt 0x5#4) ∧ decodeWord 0xF30A#16 = .ok (.ldVxK 0x3#4) ∧
    decodeWord 0xF515#16 = .ok (.ldDtVx 0x5#4) ∧ decodeWord 0xF518#16 = .ok (.ldStVx 0x5#4) ∧
    decodeWord 0xF21E#16 = .ok (.addIVx 0x2#4) ∧ decodeWord 0xF329#16 = .ok (.ldFVx 0x3#4) ∧
    decodeWord 0xF033#16 = .ok (.ldBVx 0x0#4) ∧ decodeWord 0xF155#16 = .ok (.ldIVx 0x1#4) ∧
    decodeWord 0xFA65#16 = .ok (.ldVxI 0xA#4) := by decide
/-- The failing words of 95 section 2.1. -/
theorem test_decode_failures :
    decodeWord 0x5011#16 = .error ⟨0x5#4, 0x0#4, 0x1#4, 0x1#4⟩ ∧ decodeWord 0x901F#16 = .error ⟨0x9#4, 0x0#4, 0x1#4, 0xF#4⟩ ∧
    decodeWord 0x8018#16 = .error ⟨0x8#4, 0x0#4, 0x1#4, 0x8#4⟩ ∧ decodeWord 0x800F#16 = .error ⟨0x8#4, 0x0#4, 0x0#4, 0xF#4⟩ ∧
    decodeWord 0xE09F#16 = .error ⟨0xE#4, 0x0#4, 0x9#4, 0xF#4⟩ ∧ decodeWord 0xF000#16 = .error ⟨0xF#4, 0x0#4, 0x0#4, 0x0#4⟩ := by
  decide
theorem test_decode_bytes :
    decodeBytes [0x61#8, 0x23#8, 0x77#8] = .ok (.ldVxKk 0x1#4 0x23#8, [0x77#8]) ∧
    decodeBytes [0x61#8] = .error .truncated ∧ decodeTableWord 16 0x6123 = some (.ldVxKk 0x1#4 0x23#8) ∧
    decodeTableWord 16 0xF0FF = none := by decide

/-- The text forms of 95 section 2.1. -/
theorem test_text :
    instrText (.ldVxKk 0x1#4 0x23#8) = "LD V1, 23" ∧ instrText (.drw 0x1#4 0x2#4 0xF#4) = "DRW V1, V2, F" ∧
    instrText (.jpV0 0xFFF#12) = "JP V0, FFF" ∧ instrText (.ldVxI 0xA#4) = "LD VA, [I]" ∧
    instrText (.shr 0xA#4 0xB#4) = "SHR VA, VB" ∧ instrText .cls = "CLS" := by decide

/-- Read back, the texts of 95 section 2.1 and two whose operands are also digits; other spellings are no text of R48. -/
theorem test_text_parses_back :
    parseText "LD V1, 23" = some (.ldVxKk 0x1#4 0x23#8) ∧ parseText "DRW V1, V2, F" = some (.drw 0x1#4 0x2#4 0xF#4) ∧
    parseText "LD F, VF" = some (.ldFVx 0xF#4) ∧ parseText "LD VB, [I]" = some (.ldVxI 0xB#4) ∧
    parseText "JP V0, FFF" = some (.jpV0 0xFFF#12) ∧ parseText "CLS" = some .cls := by decide
theorem test_text_refused :
    parseText "SYS 0E0" = none ∧ parseText "LD V1,23" = none ∧ parseText "LD Va, 23" = none ∧ parseText "CLS " = none := by
  decide

/-! ## Executing: the vectors of 95, each one `iterate(0)` -/

/-- The vectors' reset state with `w` at the pc. -/
def start : State := State.reset

/-- The state after one `iterate(0)` with the word `w` at the pc. -/
def after (w : Nat) (s : State) : State :=
  match iterate 0 (s.withFetchWord 16 w) with
  | .next t => t
  | .fault _ => s
  | .refused _ => s

/-- `s` with two registers set. -/
def with2 (x : RegId) (a : Byte) (y : RegId) (b : Byte) : State := writeReg y b (writeReg x a start)

/-- `s` as a machine whose shifts read Vy. -/
def readingVy (s : State) : State := { s with cfg := { s.cfg with shiftReadsVy := true } }

/-- C-10 and C-11. -/
theorem test_sys :
    (after 0x0123 start).status = .halted ⟨.unsupportedSys 0x123#12, 0x200#16⟩ ∧
    (after 0x0123 { start with cfg := { start.cfg with sysPolicy := .nop } }).pc = 0x202#16 := by decide
/-- C-1. -/
theorem test_jp : (after 0x1123 start).pc = 0x123#16 := by decide
/-- C-3 and C-4. -/
theorem test_call :
    (after 0x2300 start).stack[0]? = some 0x202#12 ∧ (after 0x2300 start).sp = 1 ∧ (after 0x2300 start).pc = 0x300#16 ∧
    (after 0x2300 (setPc 0xFFC#16 start)).stack[0]? = some 0xFFE#12 := by decide
/-- C-5, C-6 and C-7: StackOverflow comes first. -/
theorem test_call_errors :
    (after 0x2300 (setPc 0xFFE#16 start)).status = .halted ⟨.outOfBoundsAccess 0x1000#16, 0xFFE#16⟩ ∧
    (after 0x2300 { start with sp := 16 }).status = .halted ⟨.stackOverflow, 0x200#16⟩ ∧
    (after 0x2300 { setPc 0xFFE#16 start with sp := 16 }).status = .halted ⟨.stackOverflow, 0xFFE#16⟩ := by decide
/-- C-8 and C-9. -/
theorem test_ret :
    (after 0x00EE { setPc 0x300#16 start with sp := 1, stack := start.stack.set 0 0x206#12 }).pc = 0x206#16 ∧
    (after 0x00EE start).status = .halted ⟨.stackUnderflow, 0x200#16⟩ := by decide
/-- C-13 and C-14: no wrap to 12 bits, and the next fetch reports it. -/
theorem test_jpV0 :
    (after 0xB300 (writeReg 0x0#4 0x04#8 start)).pc = 0x304#16 ∧
    (after 0xBFFF (writeReg 0x0#4 0xFF#8 start)).pc = 0x10FE#16 ∧
    step (setPc 0x10FE#16 start) = .next (takeError (.outOfBoundsAccess 0x10FE#16) (setPc 0x10FE#16 start)) :=
  ⟨by decide, by decide, rfl⟩
/-- 2.1: a fetch at 0xFFF, and at 0xFFE. -/
theorem test_fetch_at_the_top :
    step (setPc 0xFFF#16 start) = .next (takeError (.outOfBoundsAccess 0x1000#16) (setPc 0xFFF#16 start)) ∧
    (after 0x6123 (setPc 0xFFE#16 start)).pc = 0x1000#16 := ⟨rfl, by decide⟩
/-- K-1 to K-8. -/
theorem test_skips_immediate :
    (after 0x3142 (writeReg 0x1#4 0x42#8 start)).pc = 0x204#16 ∧ (after 0x3142 (writeReg 0x1#4 0x41#8 start)).pc = 0x202#16 ∧
    (after 0x4142 (writeReg 0x1#4 0x41#8 start)).pc = 0x204#16 ∧ (after 0x4142 (writeReg 0x1#4 0x42#8 start)).pc = 0x202#16 := by
  decide
theorem test_skips_registers :
    (after 0x5010 (with2 0x0#4 7#8 0x1#4 7#8)).pc = 0x204#16 ∧ (after 0x5010 (with2 0x0#4 7#8 0x1#4 8#8)).pc = 0x202#16 ∧
    (after 0x9010 (with2 0x0#4 7#8 0x1#4 8#8)).pc = 0x204#16 ∧ (after 0x9010 (with2 0x0#4 7#8 0x1#4 7#8)).pc = 0x202#16 := by
  decide
/-- I-1, I-2, I-3 and I-4. -/
theorem test_register_immediate :
    readReg 0x1#4 (after 0x6123 start) = 0x23#8 ∧ readReg 0xF#4 (after 0x6F99 start) = 0x99#8 ∧
    readReg 0x0#4 (after 0x70FF (with2 0x0#4 0x01#8 0xF#4 0x77#8)) = 0x00#8 ∧
    readReg 0xF#4 (after 0x70FF (with2 0x0#4 0x01#8 0xF#4 0x77#8)) = 0x77#8 ∧
    readReg 0xF#4 (after 0x7F01 (writeReg 0xF#4 0xFF#8 start)) = 0x00#8 := by decide
/-- A-2 to A-5. -/
theorem test_logic :
    readReg 0x0#4 (after 0x8010 (with2 0x0#4 0x01#8 0x1#4 0xAB#8)) = 0xAB#8 ∧
    readReg 0x0#4 (after 0x8011 (with2 0x0#4 0xF0#8 0x1#4 0x0F#8)) = 0xFF#8 ∧
    readReg 0x0#4 (after 0x8012 (with2 0x0#4 0xF0#8 0x1#4 0x3C#8)) = 0x30#8 ∧
    readReg 0x0#4 (after 0x8013 (with2 0x0#4 0xFF#8 0x1#4 0x0F#8)) = 0xF0#8 ∧
    readReg 0xF#4 (after 0x8011 (writeReg 0xF#4 0x55#8 (with2 0x0#4 0xF0#8 0x1#4 0x0F#8))) = 0x55#8 := by decide
/-- S3, A-10 and A-12: with x = F the flag overwrites the sum. -/
theorem test_add :
    readReg 0x0#4 (after 0x8014 (with2 0x0#4 250#8 0x1#4 10#8)) = 4#8 ∧
    readReg 0xF#4 (after 0x8014 (with2 0x0#4 250#8 0x1#4 10#8)) = 1#8 ∧
    readReg 0xF#4 (after 0x8F14 (with2 0xF#4 0x10#8 0x1#4 0xF0#8)) = 1#8 ∧
    readReg 0xF#4 (after 0x8F14 (with2 0xF#4 0x01#8 0x1#4 0x02#8)) = 0#8 := by decide
/-- S5, S6, A-13 and A-16. -/
theorem test_sub :
    readReg 0x0#4 (after 0x8015 (with2 0x0#4 10#8 0x1#4 20#8)) = 246#8 ∧
    readReg 0xF#4 (after 0x8015 (with2 0x0#4 10#8 0x1#4 20#8)) = 0#8 ∧
    readReg 0xF#4 (after 0x8015 (with2 0x0#4 20#8 0x1#4 10#8)) = 1#8 ∧
    readReg 0xF#4 (after 0x8015 (with2 0x0#4 5#8 0x1#4 5#8)) = 1#8 ∧
    readReg 0xF#4 (after 0x8F15 (with2 0xF#4 3#8 0x1#4 5#8)) = 0#8 := by decide
/-- A-17 and A-20. -/
theorem test_subn :
    readReg 0x0#4 (after 0x8017 (with2 0x0#4 20#8 0x1#4 10#8)) = 246#8 ∧
    readReg 0xF#4 (after 0x8017 (with2 0x0#4 20#8 0x1#4 10#8)) = 0#8 ∧
    readReg 0xF#4 (after 0x8F17 (with2 0xF#4 2#8 0x1#4 1#8)) = 0#8 := by decide
/-- H-1 and H-7, for both values of the parameter. -/
theorem test_shr :
    readReg 0x0#4 (after 0x8016 (with2 0x0#4 0x03#8 0x1#4 0x80#8)) = 0x01#8 ∧
    readReg 0xF#4 (after 0x8016 (with2 0x0#4 0x03#8 0x1#4 0x80#8)) = 1#8 ∧
    readReg 0x0#4 (after 0x8016 (readingVy (with2 0x0#4 0x03#8 0x1#4 0x80#8))) = 0x40#8 ∧
    readReg 0xF#4 (after 0x8F16 (with2 0xF#4 0x03#8 0x1#4 0x00#8)) = 1#8 ∧
    readReg 0xF#4 (after 0x8F16 (readingVy (with2 0xF#4 0x03#8 0x1#4 0x00#8))) = 0#8 := by decide
/-- H-3 and H-9, for both values of the parameter. -/
theorem test_shl :
    readReg 0x0#4 (after 0x801E (with2 0x0#4 0x81#8 0x1#4 0x40#8)) = 0x02#8 ∧
    readReg 0xF#4 (after 0x801E (with2 0x0#4 0x81#8 0x1#4 0x40#8)) = 1#8 ∧
    readReg 0x0#4 (after 0x801E (readingVy (with2 0x0#4 0x81#8 0x1#4 0x40#8))) = 0x80#8 ∧
    readReg 0xF#4 (after 0x8F1E (readingVy (with2 0xF#4 0x01#8 0x1#4 0xFF#8))) = 1#8 := by decide
/-- D-2, D-4, D-5 and D-6. -/
theorem test_address_register :
    (after 0xA2F0 start).i = 0x2F0#12 ∧
    (after 0xF01E (writeI 0xFF0#12 (writeReg 0x0#4 0x0F#8 start))).i = 0xFFF#12 ∧
    (after 0xF01E (writeI 0xFF0#12 (writeReg 0x0#4 0x10#8 start))).status =
      .halted ⟨.unspecified .addIBeyond, 0x200#16⟩ ∧
    readReg 0xF#4 (after 0xFF1E (writeI 0x100#12 (writeReg 0xF#4 0x02#8 start))) = 0x02#8 := by decide
/-- D-7, D-10 and D-11. -/
theorem test_glyph_address :
    (after 0xF029 (writeReg 0x0#4 0x0A#8 start)).i = 0x032#12 ∧
    (after 0xF029 (writeReg 0x0#4 0x10#8 start)).status = .halted ⟨.unspecified .digitAboveF, 0x200#16⟩ ∧
    (after 0xF029 (writeReg 0x0#4 0x0A#8 { start with cfg := { start.cfg with fontBase := 0x050#12 } })).i = 0x082#12 := by
  decide
/-- T-1, T-2 and T-3. -/
theorem test_timer_access :
    readReg 0x1#4 (after 0xF107 (writeDt 0x2A#8 start)) = 0x2A#8 ∧
    (after 0xF115 (setTimers 0#8 0#8 5 (writeReg 0x1#4 0x80#8 start))).dt = 0x80#8 ∧
    (after 0xF115 (setTimers 0#8 0#8 5 (writeReg 0x1#4 0x80#8 start))).phase = 5 ∧
    toneOn (after 0xF118 (writeReg 0x1#4 0x03#8 start)) = true ∧ toneOn (after 0xF118 start) = false := by decide
/-- M-2, M-3, M-4, M-7 and M-8. -/
theorem test_timer_advance :
    (timerAdvance 16666666 (writeDt 10#8 start)).dt = 10#8 ∧ (timerAdvance 16666666 (writeDt 10#8 start)).phase = 999999960 ∧
    (timerAdvance 16666667 (writeDt 10#8 start)).dt = 9#8 ∧ (timerAdvance 16666667 (writeDt 10#8 start)).phase = 20 ∧
    (timerAdvance 100000000 (setTimers 10#8 5#8 0 start)).st = 0#8 ∧
    (timerAdvance 1 (setTimers 5#8 5#8 999999940 start)).dt = 4#8 ∧
    (timerAdvance 5000000000 (setTimers 255#8 1#8 0 start)).dt = 0#8 := by decide

/-- `s` with the answers of a collaborator fixed. -/
def answers (f : Inputs → Inputs) (s : State) : State := { s with inputs := f s.inputs }

/-- N-1 to N-4. -/
theorem test_key_skips :
    (after 0xE19E (answers (fun i => { i with keyPressed := [true] }) (writeReg 0x1#4 5#8 start))).pc = 0x204#16 ∧
    (after 0xE19E (answers (fun i => { i with keyPressed := [false] }) (writeReg 0x1#4 5#8 start))).pc = 0x202#16 ∧
    (after 0xE1A1 (answers (fun i => { i with keyPressed := [false] }) (writeReg 0x1#4 5#8 start))).pc = 0x204#16 ∧
    (after 0xE1A1 (answers (fun i => { i with keyPressed := [true] }) (writeReg 0x1#4 5#8 start))).pc = 0x202#16 ∧
    (after 0xE19E (writeReg 0x1#4 5#8 start)).requests = [.keyPressed 5#8] := by decide
/-- N-5. -/
theorem test_key_wait_begins :
    (after 0xF30A start).status = .awaitingKey 0x3#4 ∧ (after 0xF30A start).pc = 0x200#16 := by decide

/-- The state after one iteration of 100 ms. -/
def wait (s : State) : State :=
  match iterate 100000000 s with
  | .next t => t
  | .fault _ => s
  | .refused _ => s

/-- N-6, N-7 and N-9: no key, a key, and the timers of the wait. -/
theorem test_key_wait :
    (wait (answers (fun i => { i with keyEvent := [none] }) (setStatus (.awaitingKey 0x3#4) (writeDt 10#8 start)))).status =
      .awaitingKey 0x3#4 ∧
    (wait (answers (fun i => { i with keyEvent := [none] }) (setStatus (.awaitingKey 0x3#4) (writeDt 10#8 start)))).dt = 4#8 ∧
    readReg 0x3#4 (wait (answers (fun i => { i with keyEvent := [some 0xC#4] }) (setStatus (.awaitingKey 0x3#4) start))) =
      0x0C#8 ∧
    (wait (answers (fun i => { i with keyEvent := [some 0xC#4] }) (setStatus (.awaitingKey 0x3#4) start))).pc = 0x202#16 := by
  decide
/-- N-10 and N-12. -/
theorem test_rnd :
    readReg 0x1#4 (after 0xC10F (answers (fun i => { i with randomByte := [0xB7#8] }) start)) = 0x07#8 ∧
    readReg 0x1#4 (after 0xC1FF (answers (fun i => { i with randomByte := [0xB7#8] }) start)) = 0xB7#8 := by decide
/-- B-1. -/
theorem test_cls : (after 0x00E0 start).requests = [.displayClear] ∧ (after 0x00E0 start).pc = 0x202#16 := by decide
/-- B-2, B-3, B-4 and B-5. -/
theorem test_drw :
    (after 0xD015 (with2 0x0#4 3#8 0x1#4 4#8)).requests = [.displayDraw 3#8 4#8 [0xF0#8, 0x90#8, 0x90#8, 0x90#8, 0xF0#8]] ∧
    readReg 0xF#4 (after 0xD015 (answers (fun i => { i with collision := [true] }) start)) = 1#8 ∧
    (after 0xD010 (writeI 0xFFF#12 (with2 0x0#4 3#8 0x1#4 4#8))).requests = [.displayDraw 3#8 4#8 []] ∧
    (after 0xDFF1 (writeReg 0xF#4 9#8 start)).requests = [.displayDraw 9#8 9#8 [0xF0#8]] := by decide
theorem test_drw_beyond_memory :
    (after 0xD012 (writeI 0xFFF#12 start)).status = .halted ⟨.outOfBoundsAccess 0x1000#16, 0x200#16⟩ ∧
    (after 0xD012 (writeI 0xFFF#12 start)).requests = [] := by decide
/-- B-6 and B-9. -/
theorem test_ldB :
    readBytes (after 0xF033 (writeI 0x300#12 (writeReg 0x0#4 255#8 start))) 0x300 3 = [2#8, 5#8, 5#8] ∧
    (after 0xF033 (writeI 0xFFE#12 (writeReg 0x0#4 123#8 start))).status =
      .halted ⟨.outOfBoundsAccess 0x1000#16, 0x200#16⟩ ∧
    readBytes (after 0xF033 (writeI 0xFFE#12 (writeReg 0x0#4 123#8 start))) 0xFFE 2 = [0#8, 0#8] := by decide
/-- B-10 (three registers of four), B-11 and B-12. -/
theorem test_ldI_store :
    readBytes (after 0xF155 (writeI 0x300#12 (writeReg 0x2#4 3#8 (with2 0x0#4 1#8 0x1#4 2#8)))) 0x300 3 = [1#8, 2#8, 0#8] ∧
    readBytes (after 0xF055 (writeI 0xFFF#12 (writeReg 0x0#4 0xAA#8 start))) 0xFFF 1 = [0xAA#8] ∧
    (after 0xF155 (writeI 0xFFF#12 start)).status = .halted ⟨.outOfBoundsAccess 0x1000#16, 0x200#16⟩ := by decide
/-- B-13, with the digit-0 glyph as the bytes, and B-14. -/
theorem test_ldI_load :
    readReg 0x1#4 (after 0xF265 (writeReg 0x3#4 0x33#8 start)) = 0x90#8 ∧
    readReg 0x3#4 (after 0xF265 (writeReg 0x3#4 0x33#8 start)) = 0x33#8 ∧
    (after 0xF165 (writeI 0xFFF#12 (writeReg 0x0#4 5#8 start))).status =
      .halted ⟨.outOfBoundsAccess 0x1000#16, 0x200#16⟩ ∧
    readReg 0x0#4 (after 0xF165 (writeI 0xFFF#12 (writeReg 0x0#4 5#8 start))) = 5#8 := by decide
/-- E-1 and E-5: a fault freezes the timers in its own iteration. -/
theorem test_decode_error :
    (after 0x5121 start).status = .halted ⟨.decodeError 0x5#4 0x1#4 0x2#4 0x1#4, 0x200#16⟩ ∧
    (wait ((writeDt 10#8 start).withFetchWord 16 0x5121)).dt = 10#8 := by decide
/-- E-2: an iteration of a halted core, whatever its `elapsed`, does nothing. -/
theorem test_halted_iterate (e : Nat) (s : State) (r : ErrorRecord) (h : s.status = .halted r) : iterate e s = .next s := by
  simp [iterate, activity, h, finishWith, State.isHalted]
/-- The iteration order of 95 section 2.7: the set comes first, then the advance. The vector's 50 ms take 3 ticks; here
100 ms take 6 (worked by hand from R97). -/
theorem test_iteration_order :
    (wait ((writeReg 0x1#4 0x3C#8 start).withFetchWord 16 0xF115)).dt = 0x36#8 := by decide
/-- The codes of R90. -/
theorem test_error_codes :
    CoreError.code (.decodeError 0 0 0 0) = 1 ∧ CoreError.code .stackOverflow = 2 ∧ CoreError.code .stackUnderflow = 3 ∧
    CoreError.code (.outOfBoundsAccess 0) = 4 ∧ CoreError.code (.unsupportedSys 0) = 5 ∧
    CoreError.code (.unspecified .addIBeyond) = 6 := by decide
/-- A machine runs from reset once a program is loaded (R110, R111; the first word of P1). -/
theorem test_load_and_run :
    (match hostLoad [0x60#8, 0x05#8] start with
      | .next s => (match iterate 0 s with
        | .next t => readReg 0x0#4 t
        | .fault _ => 0#8
        | .refused _ => 0#8)
      | .fault _ => 0#8
      | .refused _ => 0#8) = 0x05#8 := by decide

/-! ## Witnesses: for every statement with hypotheses, states and operands that meet them, clause by clause -/

/-- The state after one step. -/
def stepped (s : State) : State :=
  match step s with
  | .next t => t
  | .fault _ => s
  | .refused _ => s

/-- The state after one instruction. -/
def done (i : Instr) (s : State) : State :=
  match exec i s with
  | .next t => t
  | .fault _ => s
  | .refused _ => s

/-- `s` with the word `w` to be fetched at `pc`. -/
def placed (pc : Word) (w : Nat) (s : State) : State := (setPc pc s).withFetchWord 16 w

theorem witness_DecodeOfEncode : (Instr.drw 0x1#4 0x2#4 0xF#4).wf = true ∧ (Instr.sys 0xFFF#12).wf = true := by decide
theorem witness_EncodeOfDecode : decode 0x61#8 0x23#8 = .ok (.ldVxKk 0x1#4 0x23#8) := by decide
/-- The first illegal and the last legal word of each row of R44's table. -/
theorem witness_IllegalWordsAreExactlyTheTable :
    (0x1#4 ≠ 0x0#4 ∧ ¬ (0x0#4 ≠ 0x0#4)) ∧
    (0x8#4 ∈ [0x8#4, 0x9#4, 0xA#4, 0xB#4, 0xC#4, 0xD#4, 0xF#4] ∧
      0xE#4 ∉ [0x8#4, 0x9#4, 0xA#4, 0xB#4, 0xC#4, 0xD#4, 0xF#4]) ∧
    (0x9#4 ++ 0xF#4 ∉ [0x9E#8, 0xA1#8] ∧ 0xA#4 ++ 0x1#4 ∈ [0x9E#8, 0xA1#8]) ∧
    (0x6#4 ++ 0x6#4 ∉ [0x07#8, 0x0A#8, 0x15#8, 0x18#8, 0x1E#8, 0x29#8, 0x33#8, 0x55#8, 0x65#8] ∧
      0x6#4 ++ 0x5#4 ∈ [0x07#8, 0x0A#8, 0x15#8, 0x18#8, 0x1E#8, 0x29#8, 0x33#8, 0x55#8, 0x65#8]) := by decide
theorem witness_TextFormIsUnique : instrText (.shr 0x1#4 0x2#4) = instrText (.shr 0x1#4 0x2#4) := rfl
theorem witness_TextParsesBack :
    (Instr.ldBVx 0xB#4).wf = true ∧ parseText "SYS FFF" = some (.sys 0xFFF#12) := by decide
theorem witness_StepRunsDecodedInstruction :
    (placed 0xFFE#16 0x6123 start).status = .running ∧ (placed 0xFFE#16 0x6123 start).InstrAtPc (.ldVxKk 0x1#4 0x23#8) ∧
    exec (.ldVxKk 0x1#4 0x23#8) (placed 0xFFE#16 0x6123 start) =
      .next (advance (writeReg 0x1#4 0x23#8 (placed 0xFFE#16 0x6123 start))) := ⟨by decide, ⟨by decide, by decide⟩, rfl⟩
theorem witness_FetchReadsTwoBytesOrRaises :
    (setPc 0xFFE#16 start).pc.toNat ≤ 0xFFE ∧ (setPc 0xFFF#16 start).pc.toNat > 0xFFE ∧
    (setPc 0xFFF#16 start).status = .running ∧ (setPc 0x1000#16 start).pc.toNat > 0xFFE := by decide
theorem witness_UnknownWordHaltsWithNibbles :
    (placed 0xFFE#16 0x5121 start).status = .running ∧ (placed 0xFFE#16 0x5121 start).pc.toNat ≤ 0xFFE ∧
    decode (readByte 0xFFE (placed 0xFFE#16 0x5121 start)) (readByte 0xFFF (placed 0xFFE#16 0x5121 start)) =
      .error ⟨0x5#4, 0x1#4, 0x2#4, 0x1#4⟩ := by decide
theorem witness_ErrorsArePrecise :
    start.isHalted = false ∧ step start = .next (stepped start) ∧
    (stepped start).status = .halted ⟨.unsupportedSys 0x000#12, 0x200#16⟩ := ⟨by decide, rfl, by decide⟩
theorem witness_HaltedChangesNothing :
    (takeError .stackOverflow start).status = .halted ⟨.stackOverflow, 0x200#16⟩ := rfl
theorem witness_StatusIsEnteredAsStated :
    step (placed 0x200#16 0xF30A start) = .next (stepped (placed 0x200#16 0xF30A start)) ∧
    (stepped (placed 0x200#16 0xF30A start)).status = .awaitingKey 0x3#4 ∧
    step start = .next (stepped start) ∧ (stepped start).status = .halted ⟨.unsupportedSys 0x000#12, 0x200#16⟩ ∧
    step (placed 0x200#16 0x1300 start) = .next (stepped (placed 0x200#16 0x1300 start)) ∧
    (stepped (placed 0x200#16 0x1300 start)).status = .running :=
  ⟨rfl, by decide, rfl, by decide, rfl, by decide⟩
theorem witness_InvHoldsAtReset : Config.wf { defaultConfig with stackDepth := 1, fontBase := 0x1B0#12 } = true := by decide
/-- A state that is not the reset state: the stack full, the pc at its bound, the core halted there. -/
def atTheBounds : State :=
  takeError (.outOfBoundsAccess 0x10FE#16) (setTimers 0#8 0#8 999999999 { setPc 0x10FE#16 start with sp := 16 })
theorem witness_StepKeepsInv : atTheBounds.Inv ∧ step atTheBounds = .next atTheBounds := by
  refine ⟨⟨by decide, by decide, by decide, by decide, by decide, by decide, fun x h => ?_, fun r h => ?_⟩, ?_⟩
  · simp [atTheBounds, takeError, setStatus] at h
  · simp only [atTheBounds, takeError, setStatus, Status.halted.injEq] at h ⊢
    rw [← h]
  · simp [step, activity, atTheBounds, finishIteration, takeError, setStatus, State.isHalted, onNext]
theorem witness_RequestRecordIsNeverRead :
    step (placed 0x200#16 0x00E0 start) = .next (stepped (placed 0x200#16 0x00E0 start)) ∧
    (stepped (placed 0x200#16 0x00E0 start)).requests = [.displayClear] := ⟨rfl, by decide⟩
theorem witness_SelfJumpIsAtRest : (placed 0x200#16 0x1200 start).AtRest :=
  ⟨by decide, 0x200#12, ⟨by decide, by decide⟩, by decide⟩
theorem witness_ThousandMillisecondsAreSixtyTicks :
    (setTimers 200#8 59#8 999999999 start).phase < 1000000000 ∧ start.phase < 1000000000 := by decide
theorem witness_TimersStopOnlyOnHalt :
    step start = .next (stepped start) ∧ (stepped start).isHalted = true ∧
    (answers (fun i => { i with elapsed := [16666667] }) (setStatus (.awaitingKey 0xF#4) start)).status =
      .awaitingKey 0xF#4 ∧
    (answers (fun i => { i with elapsed := [16666667] }) (setStatus (.awaitingKey 0xF#4) start)).inputs.elapsed =
      16666667 :: [] := ⟨rfl, by decide, rfl, rfl⟩
theorem witness_SysFollowsItsPolicy :
    (0x0DF#12 ≠ 0x0E0#12 ∧ 0x0DF#12 ≠ 0x0EE#12) ∧ start.cfg.sysPolicy = .fault ∧
    ({ start with cfg := { start.cfg with sysPolicy := .nop } } : State).cfg.sysPolicy = .nop := by decide
theorem witness_CallPushesReturnAddress :
    start.stack.length = start.cfg.stackDepth ∧
    ({ start with sp := 16 } : State).sp = start.cfg.stackDepth ∧
    (({ setPc 0xFFE#16 start with sp := 15 } : State).sp < start.cfg.stackDepth ∧
      ({ setPc 0xFFE#16 start with sp := 15 } : State).pc = 0xFFE#16) ∧
    (({ setPc 0xFFD#16 start with sp := 15 } : State).sp < start.cfg.stackDepth ∧
      ({ setPc 0xFFD#16 start with sp := 15 } : State).pc.toNat < 0xFFE) := by decide
theorem witness_RetPopsOrUnderflows :
    start.sp = 0 ∧ ({ start with sp := 16 } : State).sp = 15 + 1 ∧
    ({ start with sp := 16 } : State).stack[15]? = some 0x000#12 := by decide
theorem witness_ReturnComesBackAfterTheCall :
    (setPc 0xFFD#16 start).stack.length = (setPc 0xFFD#16 start).cfg.stackDepth ∧
    (setPc 0xFFD#16 start).sp < (setPc 0xFFD#16 start).cfg.stackDepth ∧ (setPc 0xFFD#16 start).pc.toNat < 0xFFE ∧
    exec (.call 0x300#12) (setPc 0xFFD#16 start) = .next (done (.call 0x300#12) (setPc 0xFFD#16 start)) ∧
    (done (.call 0x300#12) (setPc 0xFFD#16 start)).sp = 1 := ⟨by decide, by decide, by decide, rfl, by decide⟩
theorem witness_AddIAddsOrHalts :
    (writeI 0xFF0#12 (writeReg 0x2#4 0x0F#8 start)).i.toNat +
      (readReg 0x2#4 (writeI 0xFF0#12 (writeReg 0x2#4 0x0F#8 start))).toNat ≤ 0xFFF ∧
    (writeI 0xFF0#12 (writeReg 0x2#4 0x10#8 start)).i.toNat +
      (readReg 0x2#4 (writeI 0xFF0#12 (writeReg 0x2#4 0x10#8 start))).toNat > 0xFFF := by decide
theorem witness_LdFPointsAtTheDigitsGlyph :
    start.cfg.wf = true ∧ (readReg 0x2#4 (writeReg 0x2#4 0x0F#8 start)).toNat ≤ 0xF ∧
    (readReg 0x2#4 (writeReg 0x2#4 0x10#8 start)).toNat > 0xF := by decide
theorem witness_KeySkipsFollowTheAnswer :
    (answers (fun i => { i with keyPressed := [true] }) start).inputs.keyPressed = true :: [] := rfl
theorem witness_LdVxKSuspends :
    (setStatus (.awaitingKey 0xF#4) start).status = .awaitingKey 0xF#4 ∧
    ∃ t, step (setStatus (.awaitingKey 0xF#4) start) = .next t := ⟨rfl, _, rfl⟩
theorem witness_KeyWaitEndsOnAKey (answer : Option Nibble) :
    let s := answers (fun i => { i with keyEvent := [answer] }) (setStatus (.awaitingKey 0xF#4) start)
    s.status = .awaitingKey 0xF#4 ∧ s.inputs.keyEvent = answer :: [] := ⟨rfl, rfl⟩
theorem witness_RndMasksTheRandomByte :
    (answers (fun i => { i with randomByte := [0xB7#8] }) start).inputs.randomByte = 0xB7#8 :: [] := rfl
theorem witness_DrwSendsRowsAndRecordsCollision :
    (writeI 0xFF1#12 (answers (fun i => { i with collision := [true] }) start)).i.toNat + (0xF#4).toNat ≤ 0x1000 ∧
    (writeI 0xFF1#12 (answers (fun i => { i with collision := [true] }) start)).inputs.collision = true :: [] ∧
    (writeI 0xFF2#12 start).i.toNat + (0xF#4).toNat > 0x1000 := by decide
theorem witness_LdBStoresDecimalDigits :
    Memory.wf start.cfg start.mem = true ∧ (writeI 0xFFD#12 start).i.toNat ≤ 0xFFD ∧
    (writeI 0xFFE#12 start).i.toNat > 0xFFD := by decide
/-- Of LdIVxStoresTheRegisterBlock and LdVxILoadsTheRegisterBlock. -/
theorem witness_RegisterBlocks :
    Memory.wf start.cfg start.mem = true ∧ (writeI 0xFF0#12 start).i.toNat + (0xF#4).toNat ≤ 0xFFF ∧
    (writeI 0xFF1#12 start).i.toNat + (0xF#4).toNat > 0xFFF := by decide
theorem witness_MemReadChecksBeforeItReads :
    (0xFF0#16).toNat + 16 ≤ 0x1000 ∧ (0xFF1#16).toNat + 15 > 0xFFF ∧
    (∀ k, k < 15 → (0xFF1#16).toNat + k ≤ 0xFFF) ∧ (0x1000#16).toNat + 0 > 0xFFF := by decide
theorem witness_MemWriteChecksBeforeItWrites :
    Memory.wf start.cfg start.mem = true ∧ (0xFFE#12).toNat + [1#8, 2#8].length ≤ 0x1000 ∧
    (0xFFE#12).toNat + [1#8, 2#8, 3#8].length > 0x1000 := by decide
theorem witness_EqualReadsAreEqualMemories :
    Memory.wf defaultConfig [(0x000, 0x01#8), (0xFFF, 0x02#8)] = true ∧
    Memory.wf defaultConfig (Memory.write defaultConfig [(0xFFF, 0x02#8)] 0x000 0x01#8) = true ∧
    ∀ a, Memory.read defaultConfig [(0x000, 0x01#8), (0xFFF, 0x02#8)] a =
      Memory.read defaultConfig (Memory.write defaultConfig [(0xFFF, 0x02#8)] 0x000 0x01#8) a :=
  ⟨by decide, by decide, fun _ => rfl⟩
/-- The highest place: the word stored lies at 0xFFE. -/
theorem witness_StoreIsSeenByTheNextFetch :
    let s := placed 0xFFC#16 0xF155 (writeI 0xFFE#12 (with2 0x0#4 0x61#8 0x1#4 0x23#8))
    Memory.wf s.cfg s.mem = true ∧ s.status = .running ∧ s.InstrAtPc (.ldIVx 0x1#4) ∧ 1 ≤ (0x1#4).toNat ∧
    s.i.toNat = s.pc.toNat + 2 ∧ s.i.toNat + (0x1#4).toNat ≤ 0xFFF ∧
    decode (readReg 0x0#4 s) (readReg 0x1#4 s) = .ok (.ldVxKk 0x1#4 0x23#8) :=
  ⟨by decide, by decide, ⟨by decide, by decide⟩, by decide, by decide, by decide, by decide⟩
theorem witness_EachPieceHasItsOwnWriters :
    (∀ i : Instr, exec i start = .next (done i start)) ∧
    (done (.ldINnn 0x123#12) start).i ≠ start.i ∧ (done (.call 0x300#12) start).sp ≠ start.sp ∧
    (done (.ldDtVx 0x0#4) (writeReg 0x0#4 1#8 start)).dt ≠ start.dt ∧
    (done (.ldStVx 0x0#4) (writeReg 0x0#4 1#8 start)).st ≠ start.st ∧ (done (.ldBVx 0x0#4) start).mem ≠ start.mem ∧
    (done .cls start).requests ≠ start.requests := by
  refine ⟨fun i => ?_, by decide, by decide, by decide, by decide, by decide, by decide⟩
  obtain ⟨t, h⟩ := exec_next i start
  simp only [done, h]
theorem witness_OnlyFlagWritersAndDestinationsChangeVF :
    exec (.sub 0x0#4 0x1#4) start = .next (done (.sub 0x0#4 0x1#4) start) ∧
    readReg 0xF#4 (done (.sub 0x0#4 0x1#4) start) ≠ readReg 0xF#4 start := ⟨rfl, by decide⟩
theorem witness_LoadPlacesTheImage :
    Memory.wf start.cfg start.mem = true ∧ (List.replicate 3584 0xAA#8).length ≤ 3584 ∧
    (List.replicate 3585 0xAA#8).length > 3584 := 
  ⟨by decide, by rw [List.length_replicate], by rw [List.length_replicate]; decide⟩

end Sys2Proof.Tests
end

section
/-! SUPPORT. The invariant of a machine that started from reset (R9, R20 to R26, R82, R91): it holds at reset, and each of
the things one iteration can do (`step_cases`) keeps it. -/

namespace Sys2Proof.Machine

variable {s t : State}

/-! ### The timer advance and the end of an iteration -/

/-- The phase is what is left of the last period, whatever it was before (R23, R97). -/
theorem timerAdvance_phase_lt (n : Nat) (s : State) : (timerAdvance n s).phase < 1000000000 :=
  Nat.mod_lt _ (by decide)

@[simp] theorem finishIteration_cfg (s : State) : (finishIteration s).cfg = s.cfg := by
  cases h : s.isHalted
  · rw [finishIteration_live h]; rfl
  · rw [finishIteration_halted h]

@[simp] theorem keyWaitPoll_cfg (x : RegId) (s : State) : (keyWaitPoll x s).cfg = s.cfg := by
  unfold keyWaitPoll
  cases keyEventAnswer s <;> rfl

/-! ### What the invariant depends on -/

/-- The instruction at the pc is fixed by the parameters, the pc and the memory. -/
theorem State.InstrAtPc.congr {i : Instr} (h : s.InstrAtPc i) (hc : t.cfg = s.cfg) (hp : t.pc = s.pc)
    (hm : t.mem = s.mem) : t.InstrAtPc i := by
  simpa only [State.InstrAtPc, hp, readByte_congr hm hc] using h

/-- Registers, I, DT, ST, inputs, draws and requests are free, and so is the phase within its range. -/
theorem State.Inv.congr (h : s.Inv) (hc : t.cfg = s.cfg) (hk : t.stack = s.stack) (hsp : t.sp = s.sp)
    (hp : t.pc = s.pc) (hph : t.phase < 1000000000) (hm : t.mem = s.mem) (hs : t.status = s.status) : t.Inv where
  cfg_wf := hc ▸ h.cfg_wf
  stack_length := by rw [hk, hc]; exact h.stack_length
  sp_le := by rw [hsp, hc]; exact h.sp_le
  pc_le := hp ▸ h.pc_le
  phase_lt := hph
  mem_wf := by rw [hm, hc]; exact h.mem_wf
  awaiting x hx := (h.awaiting x (hs ▸ hx)).congr hc hp hm
  halted r hr := hp ▸ h.halted r (hs ▸ hr)

/-- A change of status keeps the invariant when the new status fits the pc (R82, R91). -/
theorem inv_setStatus (h : s.Inv) (r : Status) (hk : ∀ x, r = .awaitingKey x → s.InstrAtPc (.ldVxK x))
    (hr : ∀ e, r = .halted e → e.pc = s.pc) : (setStatus r s).Inv :=
  { h with
    awaiting := fun x hx => (hk x hx).congr rfl rfl rfl
    halted := hr }

/-! ### What an iteration does keeps the invariant -/

/-- The record of an error holds the pc (R91, R92). -/
theorem inv_takeError (h : s.Inv) (e : CoreError) : (takeError e s).Inv :=
  inv_setStatus h _ (fun _ hx => by cases hx) fun _ hr => by cases hr; rfl

/-- The timers stop on a halt, and else bring the phase back into its range. -/
theorem inv_finishIteration (h : s.Inv) : (finishIteration s).Inv := by
  cases hh : s.isHalted
  · rw [finishIteration_live hh]
    exact h.congr rfl rfl rfl rfl (timerAdvance_phase_lt _ _) rfl rfl
  · rwa [finishIteration_halted hh]

/-- A poll with no key changes only the ports; one with a key ends the wait at the next instruction, which the pc's place
at LD Vx, K keeps within its bound (R82, R83). -/
theorem inv_keyWaitPoll (h : s.Inv) {x : RegId} (hs : s.status = .awaitingKey x) : (keyWaitPoll x s).Inv := by
  obtain ⟨hpc, -⟩ := h.awaiting x hs
  unfold keyWaitPoll
  cases keyEventAnswer s with
  | none => exact h.congr rfl rfl rfl rfl h.phase_lt rfl rfl
  | some k =>
    exact
      { h with
        pc_le := advance_pc_le hpc
        awaiting := fun _ hx => by cases hx
        halted := fun _ hr => by cases hr }

/-- A completed instruction leaves the core running, or it is the LD Vx, K that stands at the pc (R82). -/
theorem inv_of_completed {i : Instr} (h : s.Inv) (hs : s.status = .running) (hi : s.InstrAtPc i)
    (hc : Completed i s t) : t.Inv := by
  obtain hst | ⟨x, rfl, rfl⟩ := hc.status
  · have hrun : t.status = .running := hst.trans hs
    exact
      { cfg_wf := hc.cfg ▸ h.cfg_wf
        stack_length := by rw [hc.stack_length, hc.cfg]; exact h.stack_length
        sp_le := by rw [hc.cfg]; exact hc.sp_le h.sp_le
        pc_le := hc.pc_le hi.1
        phase_lt := hc.phase ▸ h.phase_lt
        mem_wf := by rw [hc.cfg]; exact hc.mem_wf h.mem_wf
        awaiting := fun _ hx => by cases hrun.symm.trans hx
        halted := fun _ hr => by cases hrun.symm.trans hr }
  · exact inv_setStatus h _ (fun y hy => by cases hy; exact hi) fun _ hr => by cases hr

/-- The instruction at the pc keeps the invariant and the parameters, whether it completes or takes an error. -/
theorem inv_exec {i : Instr} (h : s.Inv) (hs : s.status = .running) (hi : s.InstrAtPc i) (hx : exec i s = .next t) :
    t.Inv ∧ t.cfg = s.cfg := by
  obtain ⟨e, he⟩ | ⟨u, hu, hc⟩ := exec_cases i s
  · obtain rfl := Host.Outcome.next.inj (he.symm.trans hx)
    exact ⟨inv_takeError h e, takeError_cfg s e⟩
  · obtain rfl := Host.Outcome.next.inj (hu.symm.trans hx)
    exact ⟨inv_of_completed h hs hi hc, hc.cfg⟩

/-! ### Reset -/

/-- Reset meets the invariant for all parameters in their ranges: the stack is made of `stackDepth` entries, memory lists
nothing, and the core is Running (R108). -/
theorem inv_resetFor {c : Config} (hc : c.wf = true) : (State.resetFor c).Inv where
  cfg_wf := hc
  stack_length := List.length_replicate
  sp_le := Nat.zero_le _
  pc_le := by simp [State.resetFor]
  phase_lt := by simp [State.resetFor]
  mem_wf := rfl
  awaiting _ hx := by cases hx
  halted _ hr := by cases hr

end Sys2Proof.Machine

open Sys2Proof Sys2Proof.Machine

/-! ### The obligations -/

/-- Settles O13: `inv_resetFor`, and the default parameters lie in their ranges. -/
theorem invHoldsAtReset : Obligations.InvHoldsAtReset :=
  ⟨fun _ => inv_resetFor, inv_resetFor (by decide)⟩

/-- Settles O14, by the five cases of an iteration: a halted core stays, the key wait polls, the fetch or the decode raises,
or the instruction at the pc is executed. -/
theorem stepKeepsInv : Obligations.StepKeepsInv := by
  intro s t hinv hstep
  obtain ⟨r, -, h⟩ | ⟨x, hs, h⟩ | ⟨-, -, h⟩ | ⟨w, -, -, -, h⟩ | ⟨i, u, hs, hi, hu, h⟩ := step_cases s <;>
    obtain rfl := Host.Outcome.next.inj (h.symm.trans hstep)
  · exact ⟨hinv, rfl⟩
  · exact ⟨inv_finishIteration (inv_keyWaitPoll hinv hs), by rw [finishIteration_cfg, keyWaitPoll_cfg]⟩
  · exact ⟨inv_takeError hinv _, rfl⟩
  · exact ⟨inv_takeError hinv _, rfl⟩
  · obtain ⟨huinv, hucfg⟩ := inv_exec hinv hs hi hu
    exact ⟨inv_finishIteration huinv, by rw [finishIteration_cfg, hucfg]⟩

end

section
/-! SUPPORT. What the statements about the state rest on: which states of the core an iteration can lead to, the call, the
canonical memory, which instructions write a piece of the state or a register, and that nothing reads the record of
requests. -/

namespace Sys2Proof.Machine

variable {s t : State}

/-! ### The status (R25) -/

@[simp] theorem finishIteration_status (s : State) : (finishIteration s).status = s.status := by
  cases h : s.isHalted
  · rw [finishIteration_live h]; rfl
  · rw [finishIteration_halted h]

/-- The poll leaves the core waiting or lets it run again (R83). -/
theorem keyWaitPoll_status (x : RegId) (s : State) :
    (keyWaitPoll x s).status = s.status ∨ (keyWaitPoll x s).status = .running := by
  unfold keyWaitPoll
  cases keyEventAnswer s with
  | none => exact .inl rfl
  | some k => exact .inr rfl

/-- An instruction halts the core, leaves the status, or is LD Vx, K and begins the wait. -/
theorem exec_status {i : Instr} (h : exec i s = .next t) :
    (∃ r, t.status = .halted r) ∨ t.status = s.status ∨ ∃ x, i = .ldVxK x ∧ t.status = .awaitingKey x := by
  obtain ⟨e, he⟩ | ⟨u, hu, hc⟩ := exec_cases i s
  · obtain rfl := Host.Outcome.next.inj (he.symm.trans h)
    exact .inl ⟨_, rfl⟩
  · obtain rfl := Host.Outcome.next.inj (hu.symm.trans h)
    obtain hst | ⟨x, hi, ht⟩ := hc.status
    · exact .inr (.inl hst)
    · exact .inr (.inr ⟨x, hi, ht ▸ rfl⟩)

/-! ### The key wait (R83) -/

/-- An iteration of the key wait polls and then advances the timers, whatever the answer (R24, R99). -/
theorem step_of_awaitingKey {x : RegId} (hs : s.status = .awaitingKey x) :
    step s = .next (timerAdvance (elapsedAnswer (keyWaitPoll x s)) (takeElapsed (keyWaitPoll x s))) := by
  have hlive : (keyWaitPoll x s).isHalted = false := by
    obtain h | h := keyWaitPoll_status x s <;> simp [State.isHalted, h, hs]
  simp only [step, activity, hs, onNext_next, finishIteration_live hlive]

theorem keyWaitPoll_none {x : RegId} (h : keyEventAnswer s = none) : keyWaitPoll x s = askKeyEvent s := by
  simp only [keyWaitPoll, h]

theorem keyWaitPoll_some {x : RegId} {k : Nibble} (h : keyEventAnswer s = some k) :
    keyWaitPoll x s = setStatus .running (advance (writeReg x (k.zeroExtend 8) (askKeyEvent s))) := by
  simp only [keyWaitPoll, h]

/-! ### CALL (R54) -/

theorem exec_call_full (nnn : Addr) (h : s.sp = s.cfg.stackDepth) :
    exec (.call nnn) s = .next (takeError .stackOverflow s) := by
  simp only [exec, execCall, if_pos h]

theorem exec_call_beyond (nnn : Addr) (h : s.sp ≠ s.cfg.stackDepth) (hr : returnAddress s > 0xFFF) :
    exec (.call nnn) s = .next (takeError (.outOfBoundsAccess (BitVec.ofNat 16 (returnAddress s))) s) := by
  simp only [exec, execCall, if_neg h, if_pos hr]

theorem exec_call_pushes (nnn : Addr) (h : s.sp ≠ s.cfg.stackDepth) (hr : returnAddress s ≤ 0xFFF) :
    exec (.call nnn) s =
      .next (jumpTo nnn
        { s with stack := s.stack.set s.sp (BitVec.ofNat 12 (returnAddress s)), sp := s.sp + 1 }) := by
  simp only [exec, execCall, if_neg h, if_neg (Nat.not_lt.mpr hr), push_ok _ h]

/-! ### The canonical memory -/

section
variable {c : Config}

theorem Memory.read_head (k : Nat) (v : Byte) (rest : Memory) : Memory.read c ((k, v) :: rest) k = v := by
  simp [Memory.read]

theorem Memory.read_past_head {k a : Nat} (v : Byte) (rest : Memory) (h : k < a) :
    Memory.read c ((k, v) :: rest) a = Memory.read c rest a := by
  rw [Memory.read, if_neg h.ne', if_neg h.not_gt]

/-- A canonical memory that reads at a listed address of another as that one does cannot begin above it, for a listed
byte differs from the reset content. -/
theorem Memory.start_le_of_read_eq {lo lo' k : Nat} {v : Byte} {rest m' : Memory}
    (h : Memory.wfFrom c lo ((k, v) :: rest) = true) (h' : Memory.wfFrom c lo' m' = true)
    (hr : Memory.read c ((k, v) :: rest) k = Memory.read c m' k) : lo' ≤ k := by
  obtain ⟨-, -, hv, -⟩ := Memory.wfFrom_cons.mp h
  by_contra hk
  rw [Memory.read_head, Memory.read_below h' (Nat.not_le.mp hk)] at hr
  exact hv hr

/-- Canonical memories that read alike are equal: they begin with the same cell, and past it their rests read alike. -/
theorem Memory.eq_of_read_eq {lo : Nat} {m m' : Memory} (h : Memory.wfFrom c lo m = true)
    (h' : Memory.wfFrom c lo m' = true) (hr : ∀ a, Memory.read c m a = Memory.read c m' a) : m = m' := by
  induction m generalizing lo m' with
  | nil =>
    cases m' with
    | nil => rfl
    | cons kv' rest' =>
      obtain ⟨k', v'⟩ := kv'
      have : k' + 1 ≤ k' := Memory.start_le_of_read_eq h' (m' := []) rfl (hr k').symm
      omega
  | cons kv rest ih =>
    obtain ⟨k, v⟩ := kv
    obtain ⟨-, hkm, hv, hrest⟩ := Memory.wfFrom_cons.mp h
    cases m' with
    | nil =>
      have : k + 1 ≤ k := Memory.start_le_of_read_eq h (m' := []) rfl (hr k)
      omega
    | cons kv' rest' =>
      obtain ⟨k', v'⟩ := kv'
      obtain ⟨-, hkm', hv', hrest'⟩ := Memory.wfFrom_cons.mp h'
      have hk' : k' ≤ k :=
        Memory.start_le_of_read_eq h (Memory.wfFrom_cons.mpr ⟨le_rfl, hkm', hv', hrest'⟩) (hr k)
      have hk : k ≤ k' :=
        Memory.start_le_of_read_eq h' (Memory.wfFrom_cons.mpr ⟨le_rfl, hkm, hv, hrest⟩) (hr k').symm
      obtain rfl := Nat.le_antisymm hk hk'
      obtain rfl : v = v' := by simpa only [Memory.read_head] using hr k
      have hrr : ∀ a, Memory.read c rest a = Memory.read c rest' a := by
        intro a
        rcases Nat.lt_or_ge k a with ha | ha
        · simpa only [Memory.read_past_head _ _ ha] using hr a
        · rw [Memory.read_below hrest (Nat.lt_succ_of_le ha), Memory.read_below hrest' (Nat.lt_succ_of_le ha)]
      rw [ih hrest hrest' hrr]

end

/-! ### Which instructions write a piece of the state (R19, R21, R23, R27, R36) -/

/-- The pieces of state, other than the registers, the pc and the status, that an instruction can reach. -/
inductive Piece where
  | index | sp | stack | dt | st | phase | mem | requests

/-- The piece is the same in both states. -/
def Piece.Same (p : Piece) (s t : State) : Prop :=
  match p with
  | .index => t.i = s.i
  | .sp => t.sp = s.sp
  | .stack => t.stack = s.stack
  | .dt => t.dt = s.dt
  | .st => t.st = s.st
  | .phase => t.phase = s.phase
  | .mem => t.mem = s.mem
  | .requests => t.requests = s.requests

/-- The instruction is one of the piece's own. -/
def Piece.WrittenBy (p : Piece) (i : Instr) : Prop :=
  match p with
  | .index => (∃ nnn, i = .ldINnn nnn) ∨ (∃ x, i = .addIVx x) ∨ ∃ x, i = .ldFVx x
  | .sp => (∃ nnn, i = .call nnn) ∨ i = .ret
  | .stack => (∃ nnn, i = .call nnn) ∨ i = .ret
  | .dt => ∃ x, i = .ldDtVx x
  | .st => ∃ x, i = .ldStVx x
  | .phase => False
  | .mem => (∃ x, i = .ldBVx x) ∨ ∃ x, i = .ldIVx x
  | .requests => i = .cls ∨ (∃ x y n, i = .drw x y n) ∨ (∃ x, i = .skp x) ∨ (∃ x, i = .sknp x) ∨ ∃ x kk, i = .rnd x kk

/-- Every piece is the same after `i`, or `i` is one of its own instructions. -/
def OnlyOwnPieces (i : Instr) (s t : State) : Prop := ∀ p : Piece, p.Same s t ∨ p.WrittenBy i

/-- An error changes the status alone (R92). -/
theorem onlyOwnPieces_takeError (i : Instr) (e : CoreError) (s : State) : OnlyOwnPieces i s (takeError e s) := by
  intro p; cases p <;> exact .inl rfl

/-- A checked memory write changes the memory alone. -/
theorem memWrite_eq_ok {a : Nat} {bs : List Byte} (h : memWrite a bs s = .ok t) : t = { s with mem := t.mem } := by
  unfold memWrite at h
  split at h
  · cases h
  · cases h; rfl

theorem onlyOwnPieces_memWrite {i : Instr} {a : Nat} {bs : List Byte} (hi : Piece.mem.WrittenBy i)
    (h : memWrite a bs s = .ok t) : OnlyOwnPieces i s (advance t) := by
  rw [memWrite_eq_ok h]
  intro p
  cases p
  case mem => exact .inr hi
  all_goals exact .inl rfl

/-- The three writers of I change nothing else but the pc. -/
theorem onlyOwnPieces_writeI {i : Instr} (hi : Piece.index.WrittenBy i) (a : Addr) (s : State) :
    OnlyOwnPieces i s (advance (writeI a s)) := by
  intro p
  cases p
  case index => exact .inr hi
  all_goals exact .inl rfl

/-- Every meaning answers a next state that differs only in the instruction's own pieces. -/
theorem exec_onlyOwnPieces (i : Instr) (s : State) : ∃ t, exec i s = .next t ∧ OnlyOwnPieces i s t := by
  have herr := fun e => onlyOwnPieces_takeError i e s
  cases i with
  | sys nnn =>
    simp only [exec, execSys]
    cases s.cfg.sysPolicy
    · exact ⟨_, rfl, herr _⟩
    · exact ⟨_, rfl, fun p => by cases p <;> exact .inl rfl⟩
  | ret =>
    simp only [exec, execRet]
    by_cases h : s.sp = 0
    · rw [pop_empty h]; exact ⟨_, rfl, herr _⟩
    · rw [pop_ok h]
      refine ⟨_, rfl, fun p => ?_⟩
      cases p
      case sp | stack => exact .inr (.inr rfl)
      all_goals exact .inl rfl
  | call nnn =>
    by_cases h : s.sp = s.cfg.stackDepth
    · exact ⟨_, exec_call_full nnn h, herr _⟩
    · by_cases hr : returnAddress s > 0xFFF
      · exact ⟨_, exec_call_beyond nnn h hr, herr _⟩
      · refine ⟨_, exec_call_pushes nnn h (Nat.not_lt.mp hr), fun p => ?_⟩
        cases p
        case sp | stack => exact .inr (.inl ⟨nnn, rfl⟩)
        all_goals exact .inl rfl
  | ldINnn nnn => exact ⟨_, rfl, onlyOwnPieces_writeI (.inl ⟨nnn, rfl⟩) _ s⟩
  | addIVx x =>
    simp only [exec, execAddIVx]
    split
    · exact ⟨_, rfl, herr _⟩
    · exact ⟨_, rfl, onlyOwnPieces_writeI (.inr (.inl ⟨x, rfl⟩)) _ s⟩
  | ldFVx x =>
    simp only [exec, execLdFVx]
    split
    · exact ⟨_, rfl, herr _⟩
    · exact ⟨_, rfl, onlyOwnPieces_writeI (.inr (.inr ⟨x, rfl⟩)) _ s⟩
  | drw x y n =>
    simp only [exec, execDrw]
    split
    · refine ⟨_, rfl, fun p => ?_⟩
      cases p
      case requests => exact .inr (.inr (.inl ⟨x, y, n, rfl⟩))
      all_goals exact .inl rfl
    · exact ⟨_, rfl, herr _⟩
  | ldBVx x =>
    simp only [exec, execLdBVx]
    split
    · rename_i h; exact ⟨_, rfl, onlyOwnPieces_memWrite (.inl ⟨x, rfl⟩) h⟩
    · exact ⟨_, rfl, herr _⟩
  | ldIVx x =>
    simp only [exec, execLdIVx]
    split
    · rename_i h; exact ⟨_, rfl, onlyOwnPieces_memWrite (.inr ⟨x, rfl⟩) h⟩
    · exact ⟨_, rfl, herr _⟩
  | ldVxI x =>
    simp only [exec, execLdVxI]
    split
    · rw [writeRegsFrom_eq]
      exact ⟨_, rfl, fun p => by cases p <;> exact .inl rfl⟩
    · exact ⟨_, rfl, herr _⟩
  | cls | skp | sknp | rnd =>
    refine ⟨_, rfl, fun p => ?_⟩
    cases p
    case requests => exact .inr (by simp [Piece.WrittenBy])
    all_goals exact .inl rfl
  | ldDtVx x =>
    refine ⟨_, rfl, fun p => ?_⟩
    cases p
    case dt => exact .inr ⟨x, rfl⟩
    all_goals exact .inl rfl
  | ldStVx x =>
    refine ⟨_, rfl, fun p => ?_⟩
    cases p
    case st => exact .inr ⟨x, rfl⟩
    all_goals exact .inl rfl
  | jp | jpV0 | seVxKk | sneVxKk | seVxVy | sneVxVy | ldVxKk | addVxKk | ldVxVy | orVxVy | andVxVy | xorVxVy | addVxVy
  | sub | shr | subn | shl | ldVxDt | ldVxK =>
    exact ⟨_, rfl, fun p => by cases p <;> exact .inl rfl⟩

/-- A piece that differs after `i` has `i` among its own instructions. -/
theorem Piece.writtenBy_of_not_same (p : Piece) {i : Instr} (h : exec i s = .next t) (hp : ¬ p.Same s t) :
    p.WrittenBy i := by
  obtain ⟨u, hu, hown⟩ := exec_onlyOwnPieces i s
  obtain rfl := Host.Outcome.next.inj (hu.symm.trans h)
  exact (hown p).resolve_left hp

/-! ### Which instructions write a register (R17, R18, R28) -/

/-- `i` may write the register `r`: as its destination, or as the flag register when `i` is one of the six flag writers.
LD Vx, K writes none at execute (R82). -/
def WritesReg (r : RegId) (i : Instr) : Prop :=
  match i with
  | .ldVxKk x _ | .addVxKk x _ | .rnd x _ => r = x
  | .ldVxVy x _ | .orVxVy x _ | .andVxVy x _ | .xorVxVy x _ => r = x
  | .ldVxDt x => r = x
  | .ldVxI x => r.toNat ≤ x.toNat
  | .addVxVy x _ | .sub x _ | .shr x _ | .subn x _ | .shl x _ => r = 0xF#4 ∨ r = x
  | .drw _ _ _ => r = 0xF#4
  | _ => False

/-- Every register reads the same after `i`, or `i` may write it. -/
def OnlyOwnRegs (i : Instr) (s t : State) : Prop := ∀ r : RegId, readReg r t = readReg r s ∨ WritesReg r i

/-- An error writes no register (R92). -/
theorem onlyOwnRegs_takeError (i : Instr) (e : CoreError) (s : State) : OnlyOwnRegs i s (takeError e s) :=
  fun _ => .inl rfl

theorem readReg_writeReg_or (x r : RegId) (b : Byte) (s : State) :
    readReg r (writeReg x b s) = readReg r s ∨ r = x := by
  by_cases hr : r = x
  · exact .inr hr
  · exact .inl (by rw [readReg_writeReg, if_neg hr])

theorem readReg_writeResultAndFlag_or (x r : RegId) (b f : Byte) (s : State) :
    readReg r (writeResultAndFlag x b f s) = readReg r s ∨ r = 0xF#4 ∨ r = x := by
  obtain hf | hf := readReg_writeReg_or 0xF#4 r f (writeReg x b s)
  · exact (readReg_writeReg_or x r b s).imp hf.trans .inr
  · exact .inr (.inl hf)

theorem memRead_length {a n : Nat} {bs : List Byte} (h : memRead a n s = .ok bs) : bs.length = n := by
  unfold memRead at h
  split at h
  · cases h
  · cases h; simp [readBytes_eq]

/-- Loading a block of `x + 1` bytes leaves every register above Vx (R89). -/
theorem readReg_loadBlock_or {x : RegId} {bs : List Byte} (hl : bs.length = x.toNat + 1) (r : RegId) (s : State) :
    readReg r (writeRegsFrom 0 bs s) = readReg r s ∨ r.toNat ≤ x.toNat := by
  by_cases hr : r.toNat ≤ x.toNat
  · exact .inr hr
  · have hx := x.isLt
    rw [readReg_writeRegsFrom s 0 bs (by omega), List.getD_eq_default _ _ (by omega), ite_self]
    exact .inl rfl

/-- Every meaning answers a next state that differs only in the registers the instruction may write. -/
theorem exec_onlyOwnRegs (i : Instr) (s : State) : ∃ t, exec i s = .next t ∧ OnlyOwnRegs i s t := by
  have herr := fun e => onlyOwnRegs_takeError i e s
  cases i with
  | sys nnn =>
    simp only [exec, execSys]
    cases s.cfg.sysPolicy
    · exact ⟨_, rfl, herr _⟩
    · exact ⟨_, rfl, fun _ => .inl rfl⟩
  | ret =>
    simp only [exec, execRet]
    by_cases h : s.sp = 0
    · rw [pop_empty h]; exact ⟨_, rfl, herr _⟩
    · rw [pop_ok h]; exact ⟨_, rfl, fun _ => .inl rfl⟩
  | call nnn =>
    by_cases h : s.sp = s.cfg.stackDepth
    · exact ⟨_, exec_call_full nnn h, herr _⟩
    · by_cases hr : returnAddress s > 0xFFF
      · exact ⟨_, exec_call_beyond nnn h hr, herr _⟩
      · exact ⟨_, exec_call_pushes nnn h (Nat.not_lt.mp hr), fun _ => .inl rfl⟩
  | addIVx x =>
    simp only [exec, execAddIVx]
    split
    · exact ⟨_, rfl, herr _⟩
    · exact ⟨_, rfl, fun _ => .inl rfl⟩
  | ldFVx x =>
    simp only [exec, execLdFVx]
    split
    · exact ⟨_, rfl, herr _⟩
    · exact ⟨_, rfl, fun _ => .inl rfl⟩
  | ldBVx x =>
    simp only [exec, execLdBVx]
    split
    · rename_i h
      rw [memWrite_eq_ok h]
      exact ⟨_, rfl, fun _ => .inl rfl⟩
    · exact ⟨_, rfl, herr _⟩
  | ldIVx x =>
    simp only [exec, execLdIVx]
    split
    · rename_i h
      rw [memWrite_eq_ok h]
      exact ⟨_, rfl, fun _ => .inl rfl⟩
    · exact ⟨_, rfl, herr _⟩
  | drw x y n =>
    simp only [exec, execDrw]
    split
    · exact ⟨_, rfl, fun r => readReg_writeReg_or 0xF#4 r _ _⟩
    · exact ⟨_, rfl, herr _⟩
  | ldVxI x =>
    simp only [exec, execLdVxI]
    split
    · rename_i h; exact ⟨_, rfl, fun r => readReg_loadBlock_or (memRead_length h) r s⟩
    · exact ⟨_, rfl, herr _⟩
  | ldVxKk x | addVxKk x | rnd x | ldVxVy x | orVxVy x | andVxVy x | xorVxVy x | ldVxDt x =>
    exact ⟨_, rfl, fun r => readReg_writeReg_or x r _ _⟩
  | addVxVy x | sub x | shr x | subn x | shl x =>
    exact ⟨_, rfl, fun r => readReg_writeResultAndFlag_or x r _ _ _⟩
  | cls | jp | jpV0 | seVxKk | sneVxKk | seVxVy | sneVxVy | ldINnn | skp | sknp | ldVxK | ldDtVx | ldStVx =>
    exact ⟨_, rfl, fun _ => .inl rfl⟩

/-- A register that differs after `i` is one `i` may write. -/
theorem writesReg_of_readReg_ne {i : Instr} {r : RegId} (h : exec i s = .next t) (hr : readReg r t ≠ readReg r s) :
    WritesReg r i := by
  obtain ⟨u, hu, hown⟩ := exec_onlyOwnRegs i s
  obtain rfl := Host.Outcome.next.inj (hu.symm.trans h)
  exact (hown r).resolve_left hr

/-! ### The record of requests is never read (R27, R101) -/

/-- The state with earlier requests put before the record. -/
def prependRequests (earlier : List Request) (s : State) : State := { s with requests := earlier ++ s.requests }

section
variable (rs : List Request)

@[simp] theorem prependRequests_cfg (s : State) : (prependRequests rs s).cfg = s.cfg := rfl
@[simp] theorem prependRequests_i (s : State) : (prependRequests rs s).i = s.i := rfl
@[simp] theorem readReg_prependRequests (r : RegId) (s : State) : readReg r (prependRequests rs s) = readReg r s := rfl
@[simp] theorem readByte_prependRequests (a : Nat) (s : State) : readByte a (prependRequests rs s) = readByte a s := rfl

@[simp] theorem memRead_prependRequests (a n : Nat) (s : State) : memRead a n (prependRequests rs s) = memRead a n s := by
  simp only [memRead, readBytes_eq, readByte_prependRequests]

theorem memWrite_prependRequests (a : Nat) (bs : List Byte) (s : State) :
    memWrite a bs (prependRequests rs s) = (memWrite a bs s).map (prependRequests rs) := by
  unfold memWrite
  cases firstBeyond a bs.length <;> rfl

@[simp] theorem regsFrom_prependRequests (j n : Nat) (s : State) :
    regsFrom (prependRequests rs s) j n = regsFrom s j n := by
  induction n generalizing j with
  | zero => rfl
  | succ n ih => simp only [regsFrom, ih, readReg_prependRequests]

@[simp] theorem regBlock_prependRequests (x : RegId) (s : State) : regBlock x (prependRequests rs s) = regBlock x s :=
  regsFrom_prependRequests ..

theorem writeRegsFrom_prependRequests (j : Nat) (bs : List Byte) (s : State) :
    writeRegsFrom j bs (prependRequests rs s) = prependRequests rs (writeRegsFrom j bs s) := by
  induction bs generalizing j s with
  | nil => rfl
  | cons b bs ih => exact ih (j + 1) (writeReg (BitVec.ofNat 4 j) b s)

theorem askClear_prependRequests (s : State) : askClear (prependRequests rs s) = prependRequests rs (askClear s) := by
  simp only [askClear, prependRequests, List.append_assoc]

theorem askDraw_prependRequests (x y : Byte) (rows : List Byte) (s : State) :
    askDraw x y rows (prependRequests rs s) = prependRequests rs (askDraw x y rows s) := by
  simp only [askDraw, prependRequests, List.append_assoc]

theorem askKeyPressed_prependRequests (k : Byte) (s : State) :
    askKeyPressed k (prependRequests rs s) = prependRequests rs (askKeyPressed k s) := by
  simp only [askKeyPressed, prependRequests, List.append_assoc]

theorem askKeyEvent_prependRequests (s : State) :
    askKeyEvent (prependRequests rs s) = prependRequests rs (askKeyEvent s) := by
  simp only [askKeyEvent, prependRequests, List.append_assoc]

theorem askRandom_prependRequests (s : State) : askRandom (prependRequests rs s) = prependRequests rs (askRandom s) := by
  simp only [askRandom, prependRequests, List.append_assoc]

/-- The meaning of an instruction commutes with putting requests before the record. -/
theorem exec_prependRequests (i : Instr) (s : State) :
    exec i (prependRequests rs s) = onNext (prependRequests rs) (exec i s) := by
  cases i with
  | sys nnn =>
    simp only [exec, execSys, onNext_next, prependRequests_cfg]
    cases s.cfg.sysPolicy <;> rfl
  | ret =>
    by_cases h : s.sp = 0
    · simp only [exec, execRet, pop_empty h, pop_empty (s := prependRequests rs s) h]; rfl
    · simp only [exec, execRet, pop_ok h, pop_ok (s := prependRequests rs s) h]; rfl
  | call nnn =>
    by_cases h : s.sp = s.cfg.stackDepth
    · rw [exec_call_full nnn h, exec_call_full (s := prependRequests rs s) nnn h]; rfl
    · by_cases hr : returnAddress s > 0xFFF
      · rw [exec_call_beyond nnn h hr, exec_call_beyond (s := prependRequests rs s) nnn h hr]; rfl
      · rw [exec_call_pushes nnn h (Nat.not_lt.mp hr),
          exec_call_pushes (s := prependRequests rs s) nnn h (Nat.not_lt.mp hr)]; rfl
  | addIVx x =>
    simp only [exec, execAddIVx, onNext_next, apply_ite (prependRequests rs)]; rfl
  | ldFVx x =>
    simp only [exec, execLdFVx, onNext_next, apply_ite (prependRequests rs)]; rfl
  | drw x y n =>
    simp only [exec, execDrw, memRead_prependRequests, askDraw_prependRequests, prependRequests_i]
    cases memRead s.i.toNat n.toNat s <;> rfl
  | ldBVx x =>
    simp only [exec, execLdBVx, memWrite_prependRequests, prependRequests_i, readReg_prependRequests]
    cases memWrite s.i.toNat (decimalDigits (readReg x s)) s <;> rfl
  | ldIVx x =>
    simp only [exec, execLdIVx, memWrite_prependRequests, regBlock_prependRequests, prependRequests_i]
    cases memWrite s.i.toNat (regBlock x s) s <;> rfl
  | ldVxI x =>
    simp only [exec, execLdVxI, memRead_prependRequests, writeRegsFrom_prependRequests, prependRequests_i]
    cases memRead s.i.toNat (x.toNat + 1) s <;> rfl
  | cls => exact congrArg (fun u => Host.Outcome.next (advance u)) (askClear_prependRequests rs s)
  | skp x => simp only [exec, execSkp, askKeyPressed_prependRequests]; rfl
  | sknp x => simp only [exec, execSknp, askKeyPressed_prependRequests]; rfl
  | rnd x kk => simp only [exec, execRnd, askRandom_prependRequests]; rfl
  | jp | jpV0 | seVxKk | sneVxKk | seVxVy | sneVxVy | ldVxKk | addVxKk | ldVxVy | orVxVy | andVxVy | xorVxVy | addVxVy
  | sub | shr | subn | shl | ldINnn | ldVxDt | ldVxK | ldDtVx | ldStVx =>
    rfl

theorem keyWaitPoll_prependRequests (x : RegId) (s : State) :
    keyWaitPoll x (prependRequests rs s) = prependRequests rs (keyWaitPoll x s) := by
  have hask : keyEventAnswer (prependRequests rs s) = keyEventAnswer s := rfl
  cases h : keyEventAnswer s with
  | none => rw [keyWaitPoll_none h, keyWaitPoll_none (hask.trans h), askKeyEvent_prependRequests]
  | some k => rw [keyWaitPoll_some h, keyWaitPoll_some (hask.trans h), askKeyEvent_prependRequests]; rfl

theorem finishIteration_prependRequests (s : State) :
    finishIteration (prependRequests rs s) = prependRequests rs (finishIteration s) := by
  have hhalt : (prependRequests rs s).isHalted = s.isHalted := rfl
  cases h : s.isHalted
  · rw [finishIteration_live h, finishIteration_live (hhalt.trans h)]; rfl
  · rw [finishIteration_halted h, finishIteration_halted (hhalt.trans h)]

theorem runInstruction_prependRequests (s : State) :
    runInstruction (prependRequests rs s) = onNext (prependRequests rs) (runInstruction s) := by
  have hfetch : fetch (prependRequests rs s) = fetch s := by
    unfold fetch; rw [show (prependRequests rs s).pc = s.pc from rfl, memRead_prependRequests]; rfl
  unfold runInstruction
  rw [hfetch]
  rcases fetch s with e | ⟨hi, lo⟩
  · rfl
  · dsimp only
    cases decode hi lo with
    | error word => rfl
    | ok i => exact exec_prependRequests rs i s

theorem activity_prependRequests (s : State) :
    activity (prependRequests rs s) = onNext (prependRequests rs) (activity s) := by
  unfold activity
  rw [show (prependRequests rs s).status = s.status from rfl]
  cases s.status with
  | running => exact runInstruction_prependRequests rs s
  | awaitingKey x => exact congrArg Host.Outcome.next (keyWaitPoll_prependRequests rs x s)
  | halted r => rfl

/-- A step commutes with putting requests before the record. -/
theorem step_prependRequests (s : State) : step (prependRequests rs s) = onNext (prependRequests rs) (step s) := by
  unfold step
  rw [activity_prependRequests]
  cases activity s with
  | next u => exact congrArg Host.Outcome.next (finishIteration_prependRequests rs u)
  | fault e => rfl
  | refused e => rfl

end

end Sys2Proof.Machine
end

section
/-! SUPPORT. The statements about the state, settled from the laws above. -/

open Sys2Proof Sys2Proof.Machine

/-- Settles O6: the step of a running core, with the end of the iteration written out. -/
theorem stepRunsDecodedInstruction : Obligations.StepRunsDecodedInstruction :=
  fun _ _ _ => step_of_exec

/-- Settles O12, by the five cases of an iteration: each but the first leads from a status of its own, and the end of the
iteration leaves the status. -/
theorem statusIsEnteredAsStated : Obligations.StatusIsEnteredAsStated := by
  intro s t hstep
  obtain ⟨r, hs, h⟩ | ⟨x, hs, h⟩ | ⟨hs, -, h⟩ | ⟨w, hs, -, -, h⟩ | ⟨i, u, hs, hi, hu, h⟩ := step_cases s <;>
    obtain rfl := Host.Outcome.next.inj (h.symm.trans hstep)
  · exact ⟨fun _ => .inl, fun _ => .inl, .inl⟩
  · obtain hp | hp := keyWaitPoll_status x s <;> simp [hp, hs]
  · simp [hs]
  · simp [hs]
  · simp only [finishIteration_status]
    refine ⟨fun x hx => .inr ⟨hs, ?_⟩, fun _ _ => .inr hs, fun _ => .inl hs⟩
    obtain ⟨r, hr⟩ | hr | ⟨y, rfl, hr⟩ := exec_status hu
    · cases hr.symm.trans hx
    · cases (hr.trans hs).symm.trans hx
    · cases hr.symm.trans hx; exact hi

/-- Settles O15: a step commutes with putting requests before the record. -/
theorem requestRecordIsNeverRead : Obligations.RequestRecordIsNeverRead := by
  intro s t earlier hstep
  have h := step_prependRequests earlier s
  rwa [hstep] at h

/-- Settles O33, by the order of CALL's checks: the full stack, the return address, the push. -/
theorem callPushesReturnAddress : Obligations.CallPushesReturnAddress := by
  intro nnn s hlen
  refine ⟨?_, exec_call_full nnn, fun hsp hpc => ?_, fun hsp hpc => ?_⟩
  · rw [decodeWord_addr]; simp [decodeNibbles]
  · have hret : returnAddress s = 0x1000 := by simp [returnAddress, hpc]
    rw [exec_call_beyond nnn hsp.ne (by omega), hret]; rfl
  · have hret : returnAddress s = s.pc.toNat + 2 := rfl
    refine ⟨_, exec_call_pushes nnn hsp.ne (by omega), ?_, ?_, rfl, ?_, fun j hj => ?_⟩
    · exact sameBut_of rfl (.inr rfl) (.inr rfl) (.inl (by simp)) (.inr ⟨rfl, rfl, rfl⟩) (.inr rfl)
        (.inr fun _ => rfl) (.inr ⟨rfl, rfl, rfl⟩)
    · simp [Nat.mod_eq_of_lt (nnn.isLt.trans (by decide : 2 ^ 12 < 65536))]
    · rw [jumpTo_stack, List.getElem?_set_self (hlen ▸ hsp), Option.map_some, BitVec.toNat_ofNat,
        Nat.mod_eq_of_lt (by omega), hret]
    · rw [jumpTo_stack, List.getElem?_set_ne hj.symm]

/-- Settles O41, by the answer of the poll; the timer advance after it changes only timers and the elapsed input. -/
theorem keyWaitEndsOnAKey : Obligations.KeyWaitEndsOnAKey := by
  intro x s hs
  refine ⟨keyEventAnswer s, _, step_of_awaitingKey hs, fun a rest h => by simp [keyEventAnswer, h], ?_⟩
  cases h : keyEventAnswer s with
  | none =>
    rw [keyWaitPoll_none h]
    refine ⟨rfl, rfl, ?_, rfl⟩
    exact sameBut_of rfl (.inr rfl) (.inr rfl) (.inr ⟨rfl, rfl⟩) (.inl (by simp)) (.inr rfl) (.inr fun _ => rfl)
      (.inl (by simp))
  | some k =>
    rw [keyWaitPoll_some h]
    refine ⟨rfl, rfl, ?_, rfl, rfl, fun r => ?_⟩
    · exact sameBut_of rfl (.inl (by simp)) (.inr rfl) (.inr ⟨rfl, rfl⟩) (.inl (by simp)) (.inl (by simp))
        (.inr fun _ => rfl) (.inl (by simp))
    · have hk : (k.zeroExtend 8).toNat = k.toNat := BitVec.toNat_setWidth_of_le (by decide)
      rw [timerAdvance, readReg_setTimers, readReg_takeElapsed, readReg_setStatus, readReg_advance, readReg_writeReg,
        readReg_askKeyEvent, apply_ite BitVec.toNat, hk]

/-- Settles O50: canonical memories that read alike are equal. -/
theorem equalReadsAreEqualMemories : Obligations.EqualReadsAreEqualMemories :=
  fun _ _ _ => Memory.eq_of_read_eq

/-- Settles O52, piece by piece. -/
theorem eachPieceHasItsOwnWriters : Obligations.EachPieceHasItsOwnWriters := by
  intro i s t h
  have hw := fun p : Piece => p.writtenBy_of_not_same h
  exact ⟨hw .index, fun hs => hs.elim (hw .sp) (hw .stack), hw .dt, hw .st, not_not.mp (hw .phase), hw .mem,
    hw .requests⟩

/-- Settles O53, from the registers an instruction may write: those that may write VF are the flag writers and those with
VF as their destination. -/
theorem onlyFlagWritersAndDestinationsChangeVF : Obligations.OnlyFlagWritersAndDestinationsChangeVF := by
  intro i s t h hvf
  have hw := writesReg_of_readReg_ne h hvf
  cases i with
  | ldVxI x =>
    have hx := x.isLt
    obtain rfl : x = 0xF#4 := BitVec.eq_of_toNat_eq (Nat.le_antisymm (Nat.le_of_lt_succ hx) hw)
    simp
  | ldVxKk x | addVxKk x | rnd x | ldVxVy x | orVxVy x | andVxVy x | xorVxVy x | ldVxDt x =>
    obtain rfl : 0xF#4 = x := hw
    simp
  | addVxVy | sub | shr | subn | shl | drw => simp
  | _ => exact False.elim hw

end

section
/-! SUPPORT. What the statements about memory rest on: the address an out-of-bounds error names, the glyph bytes of the
reset content, a checked write to a canonical memory, and the two instructions LD F and LD [I]. -/

namespace Sys2Proof.Machine

variable {s : State}

/-! ### Fetch and its error (R32, R30) -/

/-- A pc at which no word fits names 0x1000 when its first byte still lies in memory, and else itself. -/
theorem lowestBeyond_pc {p : Word} (h : p.toNat > 0xFFE) :
    BitVec.ofNat 16 (max p.toNat 0x1000) = if p = 0xFFF#16 then 0x1000#16 else p := by
  by_cases hp : p = 0xFFF#16
  · simp [hp]
  · have hne : p.toNat ≠ 0xFFF := fun hn => hp (BitVec.eq_of_toNat_eq hn)
    rw [if_neg hp, Nat.max_eq_left (by omega), BitVec.ofNat_toNat, BitVec.setWidth_eq]

/-- A fetch that raises ends the iteration: the error is taken and the timers do not advance (R51, R92, R99). -/
theorem step_of_fetch_error {e : CoreError} (hs : s.status = .running) (h : fetch s = .error e) :
    step s = .next (takeError e s) := by
  simp only [step, activity, hs, runInstruction, h, onNext_next, finishIteration_halted (isHalted_takeError e s)]

/-! ### Checked reads and writes (R30, R31) -/

/-- The bounds check names the address at the least index that lies beyond memory. -/
theorem memRead_error_least {a n j : Nat} (hj : j < n) (hb : a + j > 0xFFF) (hl : ∀ k, k < j → a + k ≤ 0xFFF) :
    memRead a n s = .error (.outOfBoundsAccess (BitVec.ofNat 16 (a + j))) := by
  have hmax : max a 0x1000 = a + j := by
    cases j with
    | zero => omega
    | succ k =>
      have := hl k (Nat.lt_succ_self k)
      omega
  rw [memRead_error s (by omega) (by omega), hmax]

/-- A write that begins inside memory can only run past its end. -/
theorem memWrite_error_addr {a : Addr} {bs : List Byte} (h : a.toNat + bs.length > 0x1000) :
    memWrite a.toNat bs s = .error (.outOfBoundsAccess 0x1000#16) := by
  have ha := a.isLt
  rw [memWrite_error s (by omega) h, Nat.max_eq_right (by omega)]

/-- After a write inside memory the byte at the place of the `j`-th byte is that byte. -/
theorem readByte_writeAll_getElem? (hw : Memory.wf s.cfg s.mem = true) {a j : Nat} {bs : List Byte} {b : Byte}
    (h : a + bs.length ≤ 0x1000) (hb : bs[j]? = some b) :
    readByte (a + j) { s with mem := Memory.writeAll s.cfg s.mem a bs } = b := by
  rw [readByte_writeAll hw h, if_pos (Nat.le_add_right a j), Nat.add_sub_cancel_left, List.getD_eq_getElem?_getD, hb,
    Option.getD_some]

/-- A write inside memory leaves every byte outside its block. -/
theorem readByte_writeAll_outside (hw : Memory.wf s.cfg s.mem = true) {a k : Nat} {bs : List Byte}
    (h : a + bs.length ≤ 0x1000) (hk : k < a ∨ a + bs.length ≤ k) :
    readByte k { s with mem := Memory.writeAll s.cfg s.mem a bs } = readByte k s := by
  rw [readByte_writeAll hw h]
  by_cases ha : a ≤ k
  · rw [if_pos ha, List.getD_eq_default _ _ (by omega)]
  · rw [if_neg ha]

/-! ### LD F (R33, R76) -/

theorem exec_ldFVx_digit {x : RegId} (h : (readReg x s).toNat ≤ 0xF) :
    exec (.ldFVx x) s = .next (advance (writeI (glyphAddress (readReg x s) s) s)) := by
  simp only [exec, execLdFVx, if_neg (Nat.not_lt.mpr h)]

theorem exec_ldFVx_beyond {x : RegId} (h : (readReg x s).toNat > 0xF) :
    exec (.ldFVx x) s = .next (takeError (.unspecified .digitAboveF) s) := by
  simp only [exec, execLdFVx, if_pos h]

/-- The range of `fontBase` (R9). -/
theorem fontBase_le_of_wf {c : Config} (h : c.wf = true) : c.fontBase.toNat + 80 ≤ 0x200 := by
  simp only [Config.wf, Bool.and_eq_true, decide_eq_true_eq] at h
  exact h.2

/-- The glyph of a digit lies in memory, so that its address needs no reduction to 12 bits. -/
theorem glyphAddress_toNat (hc : s.cfg.wf = true) {g : Byte} (hg : g.toNat ≤ 0xF) :
    (glyphAddress g s).toNat = s.cfg.fontBase.toNat + 5 * g.toNat := by
  have hbase := fontBase_le_of_wf hc
  rw [glyphAddress, BitVec.toNat_ofNat, Nat.mod_eq_of_lt (by omega)]

/-- The reset content from `fontBase` on is the glyph table (R33, R109). -/
theorem resetByte_glyph (c : Config) {k : Nat} (hk : k < 80) :
    some (resetByte c (c.fontBase.toNat + k)) = c.fontGlyphs[k]? := by
  simp [resetByte, hk]

/-! ### LD [I] and the fetch after it (R38, R88, R113) -/

theorem exec_ldIVx_stores {x : RegId} (h : s.i.toNat + x.toNat ≤ 0xFFF) :
    exec (.ldIVx x) s =
      .next (advance { s with mem := Memory.writeAll s.cfg s.mem s.i.toNat (regBlock x s) }) := by
  have hb : s.i.toNat + (regBlock x s).length ≤ 0x1000 := by rw [regBlock_length]; omega
  simp only [exec, execLdIVx, memWrite_ok s (.inr hb)]

/-- After LD [I], Vx the byte at I + j is Vj. -/
theorem readByte_stored (hw : Memory.wf s.cfg s.mem = true) {x : RegId} (h : s.i.toNat + x.toNat ≤ 0xFFF) {j : Nat}
    (hj : j ≤ x.toNat) :
    readByte (s.i.toNat + j) { s with mem := Memory.writeAll s.cfg s.mem s.i.toNat (regBlock x s) } =
      readReg (BitVec.ofNat 4 j) s := by
  refine readByte_writeAll_getElem? hw (by rw [regBlock_length]; omega) ?_
  rw [regBlock, regsFrom_getElem? s 0 _ j (by omega), Nat.zero_add]

@[simp] theorem finishIteration_pc (s : State) : (finishIteration s).pc = s.pc := by
  cases h : s.isHalted
  · rw [finishIteration_live h]; rfl
  · rw [finishIteration_halted h]

@[simp] theorem finishIteration_mem (s : State) : (finishIteration s).mem = s.mem := by
  cases h : s.isHalted
  · rw [finishIteration_live h]; rfl
  · rw [finishIteration_halted h]

/-- The end of the iteration leaves the instruction at the pc. -/
theorem State.InstrAtPc.finishIteration {i : Instr} (h : s.InstrAtPc i) : (finishIteration s).InstrAtPc i :=
  h.congr (finishIteration_cfg s) (finishIteration_pc s) (finishIteration_mem s)

end Sys2Proof.Machine
end

section
/-! SUPPORT. The statements about memory, settled from the laws above. -/

open Sys2Proof Sys2Proof.Machine

/-- Settles O7: a word fits at the pc or the bounds check raises, and that error ends the step. -/
theorem fetchReadsTwoBytesOrRaises : Obligations.FetchReadsTwoBytesOrRaises := by
  refine fun s => ⟨fetch_ok, fun h => ?_⟩
  have hfetch := fetch_error h
  rw [lowestBeyond_pc h] at hfetch
  exact ⟨hfetch, fun hs => step_of_fetch_error hs hfetch⟩

/-- Settles O38, by whether Vx holds a digit; the glyph's five bytes lie within the 80 of the table. -/
theorem ldFPointsAtTheDigitsGlyph : Obligations.LdFPointsAtTheDigitsGlyph := by
  intro x s hc
  refine ⟨?_, fun hg => ?_, exec_ldFVx_beyond⟩
  · rw [decodeWord_byte]; rfl
  · have haddr := glyphAddress_toNat hc hg
    refine ⟨_, exec_ldFVx_digit hg, rfl, ?_, haddr, fun j hj => ?_⟩
    · exact sameBut_of rfl (.inr rfl) (.inl (by simp)) (.inr ⟨rfl, rfl⟩) (.inr ⟨rfl, rfl, rfl⟩) (.inr rfl)
        (.inr fun _ => rfl) (.inr ⟨rfl, rfl, rfl⟩)
    · rw [advance_i, writeI_i, haddr, Nat.add_assoc]
      exact resetByte_glyph s.cfg (by omega)

/-- Settles O48: the reads that pass the bounds check, and the least index at which it fails. -/
theorem memReadChecksBeforeItReads : Obligations.MemReadChecksBeforeItReads := by
  refine fun addr n s _ => ⟨memRead_ok s, fun j hj hb hl => ⟨?_, rfl⟩⟩
  rw [memRead_error_least hj hb hl, BitVec.ofNat_add, BitVec.ofNat_toNat, BitVec.setWidth_eq]

/-- Settles O49, from what a canonical memory reads as after ascending writes, inside the block and outside it. -/
theorem memWriteChecksBeforeItWrites : Obligations.MemWriteChecksBeforeItWrites := by
  refine fun addr bytes s hw => ⟨fun h => ?_, fun h => ⟨memWrite_error_addr h, rfl⟩⟩
  refine ⟨_, memWrite_ok s (.inr h), rfl, ?_, Memory.wf_writeAll hw h, fun j b => readByte_writeAll_getElem? hw h,
    fun a => readByte_writeAll_outside hw h⟩
  exact sameBut_of rfl (.inr rfl) (.inr rfl) (.inr ⟨rfl, rfl⟩) (.inr ⟨rfl, rfl, rfl⟩) (.inr rfl) (.inl (by simp))
    (.inr ⟨rfl, rfl, rfl⟩)

/-- Settles O51: the block begins at the next pc, so the word there is V0, V1 when the next fetch reads it. -/
theorem storeIsSeenByTheNextFetch : Obligations.StoreIsSeenByTheNextFetch := by
  intro x s i hw hs hi hx hI hb hd
  refine ⟨_, step_of_exec hs hi (exec_ldIVx_stores hb), ?_, ?_, State.InstrAtPc.finishIteration ?_⟩
  · rw [finishIteration_status, advance_status, hs]
  · rw [finishIteration_pc, advance_pc]; rfl
  · have hpc : (s.pc + 2#16).toNat = s.i.toNat := by
      rw [BitVec.toNat_add, BitVec.toNat_ofNat]; omega
    have hV0 := readByte_stored hw hb (Nat.zero_le _)
    have hV1 := readByte_stored hw hb hx
    rw [Nat.add_zero] at hV0
    simp only [State.InstrAtPc, advance_pc, readByte_advance, hpc, hV0, hV1]
    exact ⟨by omega, hd⟩

end

section
/-! SUPPORT. The decoder against the encoder, nibble by nibble: the decoder gives back every well-formed instruction, a
word that decodes is the word of the instruction it decodes to, and a word decodes exactly when R44's table does not have
it. -/

namespace Sys2Proof

/-! ### Case splits and formats -/

/-- The split by a nibble's value, with a name for each: of nibble a it is R43's split by the family. -/
theorem nibble_elim {motive : Nibble → Prop} (n0 : motive 0x0#4) (n1 : motive 0x1#4) (n2 : motive 0x2#4)
    (n3 : motive 0x3#4) (n4 : motive 0x4#4) (n5 : motive 0x5#4) (n6 : motive 0x6#4) (n7 : motive 0x7#4)
    (n8 : motive 0x8#4) (n9 : motive 0x9#4) (nA : motive 0xA#4) (nB : motive 0xB#4) (nC : motive 0xC#4)
    (nD : motive 0xD#4) (nE : motive 0xE#4) (nF : motive 0xF#4) (a : Nibble) : motive a := by
  rcases nibble_cases a with
    rfl | rfl | rfl | rfl | rfl | rfl | rfl | rfl | rfl | rfl | rfl | rfl | rfl | rfl | rfl | rfl
  exacts [n0, n1, n2, n3, n4, n5, n6, n7, n8, n9, nA, nB, nC, nD, nE, nF]

theorem formatA_packAddr (a b c d : Nibble) : formatA a (packAddr b c d) = ⟨a, b, c, d⟩ := by simp [formatA]

theorem formatXK_packByte (a x c d : Nibble) : formatXK a x (packByte c d) = ⟨a, x, c, d⟩ := by simp [formatXK]

/-! ### The decoder on an instruction's nibbles (R41, R43) -/

/-- SYS has every word of family 0x0 but the two of CLS and RET (R52, C1). -/
theorem decodeFamily0_of_wf {nnn : Addr} (h : (Instr.sys nnn).wf = true) :
    decodeFamily0 (addrHi nnn) (addrMid nnn) (addrLo nnn) = .sys nnn := by
  simp only [Instr.wf, Bool.and_eq_true, bne_iff_ne, ne_eq] at h
  obtain ⟨hcls, hret⟩ := h
  have hnot (d : Nibble) (hd : nnn ≠ packAddr 0x0#4 0xE#4 d) :
      ¬ (addrHi nnn = 0x0#4 ∧ addrMid nnn = 0xE#4 ∧ addrLo nnn = d) := by
    rwa [← packAddr_eq_iff, packAddr_nibbles]
  rw [decodeFamily0, if_neg (hnot 0x0#4 hcls), if_neg (hnot 0xE#4 hret), packAddr_nibbles]

/-- A nibble-wise round trip: every instruction is one arm of the decoder's dispatch. -/
theorem decodeNibbles_encodeNibbles {i : Instr} (h : i.wf = true) :
    decodeNibbles (encodeNibbles i).a (encodeNibbles i).b (encodeNibbles i).c (encodeNibbles i).d = .ok i := by
  cases i with
  | sys nnn => exact congrArg Except.ok (decodeFamily0_of_wf h)
  | cls | ret => rfl
  | jp | call | ldINnn | jpV0 => simp [encodeNibbles, formatA, decodeNibbles]
  | seVxKk | sneVxKk | ldVxKk | addVxKk | rnd => simp [encodeNibbles, formatXK, decodeNibbles]
  | seVxVy | sneVxVy | drw => rfl
  | ldVxVy | orVxVy | andVxVy | xorVxVy | addVxVy | sub | shr | subn | shl => rfl
  | skp | sknp => rfl
  | ldVxDt | ldVxK | ldDtVx | ldStVx | addIVx | ldFVx | ldBVx | ldIVx | ldVxI => rfl

theorem decode_encode {i : Instr} (h : i.wf = true) : decode (encode i).1 (encode i).2 = .ok i :=
  (decode_packByte ..).trans (decodeNibbles_encodeNibbles h)

/-! ### The word of a decoded instruction (R43) -/

/-- Family 0x0: SYS is answered for neither of the two words that are not SYS. -/
theorem encodeNibbles_decodeFamily0 (b c d : Nibble) :
    (decodeFamily0 b c d).wf = true ∧ encodeNibbles (decodeFamily0 b c d) = ⟨0x0#4, b, c, d⟩ := by
  unfold decodeFamily0
  split_ifs with hcls hret
  · obtain ⟨rfl, rfl, rfl⟩ := hcls; exact ⟨rfl, rfl⟩
  · obtain ⟨rfl, rfl, rfl⟩ := hret; exact ⟨rfl, rfl⟩
  · refine ⟨?_, formatA_packAddr ..⟩
    simp only [Instr.wf, Bool.and_eq_true, bne_iff_ne]
    exact ⟨mt (packAddr_eq_iff b c d 0x0#4 0xE#4 0x0#4).1 hcls, mt (packAddr_eq_iff b c d 0x0#4 0xE#4 0xE#4).1 hret⟩

theorem encodeNibbles_of_decodeFamily8 {x y d : Nibble} {i : Instr} (h : decodeFamily8 x y d = .ok i) :
    i.wf = true ∧ encodeNibbles i = ⟨0x8#4, x, y, d⟩ := by
  unfold decodeFamily8 at h
  split_ifs at h with h₀ h₁ h₂ h₃ h₄ h₅ h₆ h₇ hE <;> cases h <;> subst d <;> exact ⟨rfl, rfl⟩

theorem encodeNibbles_of_decodeFamilyE {x c d : Nibble} {i : Instr} (h : decodeFamilyE x c d = .ok i) :
    i.wf = true ∧ encodeNibbles i = ⟨0xE#4, x, c, d⟩ := by
  unfold decodeFamilyE at h
  split_ifs at h with hsub hsub <;> cases h <;> obtain ⟨rfl, rfl⟩ := hsub <;> exact ⟨rfl, rfl⟩

theorem encodeNibbles_of_decodeFamilyF {x c d : Nibble} {i : Instr} (h : decodeFamilyF x c d = .ok i) :
    i.wf = true ∧ encodeNibbles i = ⟨0xF#4, x, c, d⟩ := by
  unfold decodeFamilyF at h
  split_ifs at h with hsub hsub hsub hsub hsub hsub hsub hsub hsub <;> cases h <;> obtain ⟨rfl, rfl⟩ := hsub <;>
    exact ⟨rfl, rfl⟩

/-- Nibbles that decode are those of the instruction, family by family. -/
theorem encodeNibbles_of_decodeNibbles {a b c d : Nibble} {i : Instr} (h : decodeNibbles a b c d = .ok i) :
    i.wf = true ∧ encodeNibbles i = ⟨a, b, c, d⟩ := by
  cases a using nibble_elim with
  | n0 => cases Except.ok.inj h; exact encodeNibbles_decodeFamily0 b c d
  | n1 | n2 | nA | nB => cases Except.ok.inj h; exact ⟨rfl, formatA_packAddr ..⟩
  | n3 | n4 | n6 | n7 | nC => cases Except.ok.inj h; exact ⟨rfl, formatXK_packByte ..⟩
  | n5 | n9 =>
    by_cases hd : d = 0x0#4
    · subst hd; cases Except.ok.inj h; exact ⟨rfl, rfl⟩
    · simp [decodeNibbles, hd] at h
  | n8 => exact encodeNibbles_of_decodeFamily8 h
  | nD => cases Except.ok.inj h; exact ⟨rfl, rfl⟩
  | nE => exact encodeNibbles_of_decodeFamilyE h
  | nF => exact encodeNibbles_of_decodeFamilyF h

/-- Whatever bytes decode are the two bytes of the instruction. -/
theorem encode_of_decode {hi lo : Byte} {i : Instr} (h : decode hi lo = .ok i) :
    i.wf = true ∧ encode i = (hi, lo) := by
  obtain ⟨hw, he⟩ := encodeNibbles_of_decodeNibbles h
  exact ⟨hw, by simp [encode, he]⟩

/-! ### The words of R44's table -/

/-- A word of the table, by its family and its sub-code. -/
def IllegalWord (a c d : Nibble) : Prop :=
  (a = 0x5#4 ∧ d ≠ 0x0#4) ∨
  (a = 0x8#4 ∧ d ∈ [0x8#4, 0x9#4, 0xA#4, 0xB#4, 0xC#4, 0xD#4, 0xF#4]) ∨
  (a = 0x9#4 ∧ d ≠ 0x0#4) ∨
  (a = 0xE#4 ∧ c ++ d ∉ [0x9E#8, 0xA1#8]) ∨
  (a = 0xF#4 ∧ c ++ d ∉ [0x07#8, 0x0A#8, 0x15#8, 0x18#8, 0x1E#8, 0x29#8, 0x33#8, 0x55#8, 0x65#8])

theorem illegalWord_familyE (c d : Nibble) : IllegalWord 0xE#4 c d ↔ c ++ d ∉ [0x9E#8, 0xA1#8] := by
  simp [IllegalWord]

theorem illegalWord_familyF (c d : Nibble) : IllegalWord 0xF#4 c d ↔
    c ++ d ∉ [0x07#8, 0x0A#8, 0x15#8, 0x18#8, 0x1E#8, 0x29#8, 0x33#8, 0x55#8, 0x65#8] := by
  simp [IllegalWord]

/-- A sub-code of two nibbles as one byte. -/
theorem append_eq_iff (c d : Nibble) (k : Byte) : c ++ d = k ↔ c = hiNibble k ∧ d = loNibble k := by
  constructor
  · rintro rfl; simp
  · rintro ⟨rfl, rfl⟩; exact packByte_nibbles k

@[simp] theorem isOk_ok (i : Instr) : (Except.ok i : Except Nibbles Instr).isOk = true := rfl

@[simp] theorem isOk_error (w : Nibbles) : (Except.error w : Except Nibbles Instr).isOk = false := rfl

theorem decodeFamily8_isOk (x y d : Nibble) :
    (decodeFamily8 x y d).isOk = true ↔ d ∉ [0x8#4, 0x9#4, 0xA#4, 0xB#4, 0xC#4, 0xD#4, 0xF#4] := by
  cases d using nibble_elim <;> simp [decodeFamily8]

theorem decodeFamilyE_isOk (x c d : Nibble) : (decodeFamilyE x c d).isOk = true ↔ c ++ d ∈ [0x9E#8, 0xA1#8] := by
  simp only [decodeFamilyE, List.mem_cons, List.not_mem_nil, or_false, append_eq_iff, hiNibble, loNibble,
    BitVec.reduceExtractLsb']
  split_ifs <;> simp [*]

theorem decodeFamilyF_isOk (x c d : Nibble) : (decodeFamilyF x c d).isOk = true ↔
    c ++ d ∈ [0x07#8, 0x0A#8, 0x15#8, 0x18#8, 0x1E#8, 0x29#8, 0x33#8, 0x55#8, 0x65#8] := by
  simp only [decodeFamilyF, List.mem_cons, List.not_mem_nil, or_false, append_eq_iff, hiNibble, loNibble,
    BitVec.reduceExtractLsb']
  split_ifs <;> simp [*]

/-- The decoder answers an instruction exactly for the words that are not in the table. -/
theorem decodeNibbles_isOk_iff (a b c d : Nibble) :
    (decodeNibbles a b c d).isOk = true ↔ ¬ IllegalWord a c d := by
  cases a using nibble_elim with
  | n5 | n9 => by_cases hd : d = 0x0#4 <;> simp [decodeNibbles, IllegalWord, hd]
  | n8 => exact (decodeFamily8_isOk b c d).trans (by simp [IllegalWord])
  | nE => rw [illegalWord_familyE, not_not]; exact decodeFamilyE_isOk b c d
  | nF => rw [illegalWord_familyF, not_not]; exact decodeFamilyF_isOk b c d
  | _ => exact iff_of_true rfl (by simp [IllegalWord])

theorem decodeNibbles_legal {a c d : Nibble} (b : Nibble) (h : ¬ IllegalWord a c d) :
    ∃ i, decodeNibbles a b c d = .ok i := by
  have hok := (decodeNibbles_isOk_iff a b c d).2 h
  cases hd : decodeNibbles a b c d with
  | ok i => exact ⟨i, rfl⟩
  | error w => simp [hd] at hok

/-- An illegal word fails with its own nibbles. -/
theorem decodeNibbles_illegal {a c d : Nibble} (b : Nibble) (h : IllegalWord a c d) :
    decodeNibbles a b c d = .error ⟨a, b, c, d⟩ := by
  cases hd : decodeNibbles a b c d with
  | ok i => exact absurd h ((decodeNibbles_isOk_iff a b c d).1 (by simp [hd]))
  | error w => rw [decodeNibbles_error hd]

/-- The nibbles a failure carries are those of the two bytes, high nibble first. -/
theorem bytes_of_decode_error {hi lo : Byte} {w : Nibbles} (h : decode hi lo = .error w) :
    hi = w.a ++ w.b ∧ lo = w.c ++ w.d := by
  obtain rfl := decodeNibbles_error h
  exact ⟨(packByte_nibbles hi).symm, (packByte_nibbles lo).symm⟩

end Sys2Proof
end

section
/-! SUPPORT. The statements about decoding and encoding, settled from the laws above. -/

open Sys2Proof Sys2Proof.Machine

/-- Settles O1: the decoder takes an instruction's nibbles back to it, and bytes and word have the same nibbles. -/
theorem decodeOfEncode : Obligations.DecodeOfEncode :=
  fun _ h => ⟨decode_encode h, (decodeWord_append ..).trans (decode_encode h)⟩

/-- Settles O2, family by family. -/
theorem encodeOfDecode : Obligations.EncodeOfDecode :=
  fun _ _ _ => encode_of_decode

/-- Settles O3, by whether the table has the word; the word's bytes are its nibbles packed. -/
theorem illegalWordsAreExactlyTheTable : Obligations.IllegalWordsAreExactlyTheTable := by
  intro a b c d illegal
  have hbytes : decode (a ++ b) (c ++ d) = decodeNibbles a b c d := decode_packByte a b c d
  rw [hbytes]
  exact ⟨decodeNibbles_illegal b, decodeNibbles_legal b⟩

/-- Settles O4, word by word. -/
theorem writtenOutWordsDecode : Obligations.WrittenOutWordsDecode := by
  unfold Obligations.WrittenOutWordsDecode
  decide

/-- Settles O8: the failure carries the nibbles of the bytes fetched, and of the five cases of an iteration the one of a
failed decode is left. -/
theorem unknownWordHaltsWithNibbles : Obligations.UnknownWordHaltsWithNibbles := by
  intro s w hs hpc hd
  obtain ⟨hhi, hlo⟩ := bytes_of_decode_error hd
  refine ⟨hhi, hlo, ?_⟩
  obtain ⟨r, hr, -⟩ | ⟨x, hx, -⟩ | ⟨-, hbeyond, -⟩ | ⟨w', -, -, hd', h⟩ | ⟨i, t, -, ⟨-, hi⟩, -, -⟩ := step_cases s
  · cases hs.symm.trans hr
  · cases hs.symm.trans hx
  · omega
  · obtain rfl := Except.error.inj (hd.symm.trans hd')
    exact h
  · cases hd.symm.trans hi

end

section
/-! SUPPORT. The forms of R48 against the rendering: a form reads only what its rendering gives, and the text of an
instruction is read by its own form and by no form of its mnemonic that comes before. -/

namespace Sys2Proof.Machine

/-! ### A form reads only what its rendering gives -/

/-- Operands that the form reads are, with its mnemonic, the text of the instruction they are read as. -/
def FormRenders (form : String × (List (List Char) → Option Instr)) : Prop :=
  ∀ ops i, form.2 ops = some i → textChars i = textLine form.1 ops

theorem formRenders_readNone {m : String} {i : Instr} (ht : textChars i = textLine m []) :
    FormRenders (m, readNone i) := by
  intro ops j h
  obtain ⟨rfl, rfl⟩ := readNone_eq_some.1 h
  exact ht

theorem formRenders_readOne {α : Type} {m : String} {f : List Char → Option α} {mk : α → Instr} {rf : α → List Char}
    (hf : ∀ {cs a}, f cs = some a ↔ cs = rf a) (ht : ∀ a, textChars (mk a) = textLine m [rf a]) :
    FormRenders (m, readOne f mk) := by
  intro ops j h
  obtain ⟨o, a, rfl, ho, rfl⟩ := readOne_eq_some.1 h
  obtain rfl := hf.1 ho
  exact ht a

theorem formRenders_readTwo {α β : Type} {m : String} {f : List Char → Option α} {g : List Char → Option β}
    {mk : α → β → Instr} {rf : α → List Char} {rg : β → List Char} (hf : ∀ {cs a}, f cs = some a ↔ cs = rf a)
    (hg : ∀ {cs b}, g cs = some b ↔ cs = rg b) (ht : ∀ a b, textChars (mk a b) = textLine m [rf a, rg b]) :
    FormRenders (m, readTwo f g mk) := by
  intro ops j h
  obtain ⟨o, p, a, b, rfl, ho, hp, rfl⟩ := readTwo_eq_some.1 h
  obtain rfl := hf.1 ho
  obtain rfl := hg.1 hp
  exact ht a b

theorem formRenders_readDrw : FormRenders ("DRW", readDrw) := by
  intro ops j h
  obtain ⟨x, y, n, rfl, rfl⟩ := readDrw_eq_some.1 h
  rfl

/-- Every form of R48, in the order of `formReaders`. -/
theorem formRenders_of_mem : ∀ form ∈ formReaders, FormRenders form := by
  simp only [formReaders, List.forall_mem_append, List.forall_mem_cons, List.not_mem_nil, false_imp_iff, implies_true,
    and_true]
  refine ⟨⟨⟨⟨⟨⟨?sys, ?cls, ?ret, ?jp, ?call, ?jpV0⟩, ?seVxKk, ?sneVxKk, ?seVxVy, ?sneVxVy⟩,
    ?ldVxKk, ?addVxKk, ?rnd, ?ldVxVy, ?orVxVy, ?andVxVy, ?xorVxVy, ?addVxVy⟩,
    ?sub, ?shr, ?subn, ?shl, ?drw, ?skp, ?sknp⟩, ?ldINnn, ?ldVxDt, ?ldVxK, ?ldDtVx, ?ldStVx, ?addIVx⟩,
    ?ldFVx, ?ldBVx, ?ldIVx, ?ldVxI⟩
  case cls | ret => exact formRenders_readNone rfl
  case sys | jp | call => exact formRenders_readOne readHexAddr_eq_some fun _ => rfl
  case skp | sknp => exact formRenders_readOne readRegName_eq_some fun _ => rfl
  case seVxKk | sneVxKk | ldVxKk | addVxKk | rnd =>
    exact formRenders_readTwo readRegName_eq_some readHexByte_eq_some fun _ _ => rfl
  case seVxVy | sneVxVy | ldVxVy | orVxVy | andVxVy | xorVxVy | addVxVy | sub | shr | subn | shl =>
    exact formRenders_readTwo readRegName_eq_some readRegName_eq_some fun _ _ => rfl
  case jpV0 | ldINnn => exact formRenders_readTwo readName_eq_some readHexAddr_eq_some fun _ _ => rfl
  case ldDtVx | ldStVx | addIVx | ldFVx | ldBVx | ldIVx =>
    exact formRenders_readTwo readName_eq_some readRegName_eq_some fun _ _ => rfl
  case ldVxDt | ldVxK | ldVxI => exact formRenders_readTwo readRegName_eq_some readName_eq_some fun _ _ => rfl
  case drw => exact formRenders_readDrw

/-- A text that parses is the text of the instruction it gives. -/
theorem textChars_of_parseChars {cs : List Char} {i : Instr} (h : parseChars cs = some i) :
    i.wf = true ∧ textChars i = cs := by
  obtain ⟨hw, form, hmem, hm, hr⟩ := form_of_parseChars h
  exact ⟨hw, (formRenders_of_mem form hmem _ i hr).trans (textLine_of_splitLine (Prod.ext hm rfl))⟩

/-! ### The operands of one kind are no operands of another -/

theorem hexDigit_ne_V (n : Nibble) : hexDigit n ≠ 'V' := by revert n; decide

/-- A register name begins with V. -/
theorem readRegName_eq_none {c : Char} (h : c ≠ 'V') (cs : List Char) : readRegName (c :: cs) = none :=
  readRegName.eq_2 _ fun _ e => h (List.cons.inj e).1

@[simp] theorem readRegName_hexByte (b : Byte) : readRegName (hexByte b) = none :=
  readRegName_eq_none (hexDigit_ne_V _) _

/-- No constant begins with V. -/
@[simp] theorem readHexByte_regName (x : RegId) : readHexByte (regName x) = none := rfl

theorem regName_ne {c : Char} (h : c ≠ 'V') (cs : List Char) (x : RegId) : regName x ≠ c :: cs :=
  fun e => h (List.cons.inj e).1.symm

@[simp] theorem readOne_one {α : Type} (f : List Char → Option α) (mk : α → Instr) (o : List Char) :
    readOne f mk [o] = (f o).map mk := rfl

@[simp] theorem readOne_two {α : Type} (f : List Char → Option α) (mk : α → Instr) (o p : List Char) :
    readOne f mk [o, p] = none := rfl

@[simp] theorem readTwo_two {α β : Type} (f : List Char → Option α) (g : List Char → Option β) (mk : α → β → Instr)
    (o p : List Char) : readTwo f g mk [o, p] = (f o).bind fun a => (g p).map (mk a) := rfl

/-! ### An instruction's own form reads its text -/

/-- The readers of the forms with the mnemonic `m`. -/
def formsOf (m : String) : List (List (List Char) → Option Instr) := (formReaders.filter (·.1 = m)).map Prod.snd

theorem formsOf_JP :
    formsOf "JP" = [readOne readHexAddr .jp, readTwo (readName "V0") readHexAddr fun _ => .jpV0] := rfl

theorem formsOf_SE :
    formsOf "SE" = [readTwo readRegName readHexByte .seVxKk, readTwo readRegName readRegName .seVxVy] := rfl

theorem formsOf_SNE :
    formsOf "SNE" = [readTwo readRegName readHexByte .sneVxKk, readTwo readRegName readRegName .sneVxVy] := rfl

theorem formsOf_ADD :
    formsOf "ADD" = [readTwo readRegName readHexByte .addVxKk, readTwo readRegName readRegName .addVxVy,
      readTwo (readName "I") readRegName fun _ => .addIVx] := rfl

theorem formsOf_LD :
    formsOf "LD" =
      [readTwo readRegName readHexByte .ldVxKk, readTwo readRegName readRegName .ldVxVy,
       readTwo (readName "I") readHexAddr fun _ => .ldINnn, readTwo readRegName (readName "DT") fun x _ => .ldVxDt x,
       readTwo readRegName (readName "K") fun x _ => .ldVxK x, readTwo (readName "DT") readRegName fun _ => .ldDtVx,
       readTwo (readName "ST") readRegName fun _ => .ldStVx, readTwo (readName "F") readRegName fun _ => .ldFVx,
       readTwo (readName "B") readRegName fun _ => .ldBVx, readTwo (readName "[I]") readRegName fun _ => .ldIVx,
       readTwo readRegName (readName "[I]") fun x _ => .ldVxI x] := rfl

/-- `parseChars` without its last check, that the instruction is well-formed. -/
def readLine (cs : List Char) : Option Instr :=
  formReaders.findSome? fun form => if (splitLine cs).1 = form.1.toList then form.2 (splitLine cs).2 else none

/-- A rendered line is read by the first form of its mnemonic that reads its operands. -/
theorem readLine_textLine {m : String} {ops : List (List Char)} (hm : ' ' ∉ m.toList) (ho : ∀ p ∈ ops, ',' ∉ p) :
    readLine (textLine m ops) = (formsOf m).findSome? (· ops) := by
  have hform (form : String × (List (List Char) → Option Instr)) :
      (if m.toList = form.1.toList then form.2 ops else none) =
        if decide (form.1 = m) = true then form.2 ops else none := by
    simp only [String.toList_inj, decide_eq_true_eq, eq_comm (a := m)]
  simp only [readLine, splitLine_textLine hm ho, formsOf, ← List.head?_filterMap, List.filterMap_map,
    List.filterMap_filter, Function.comp_def, hform]

/-- A mnemonic with one form reads what that form reads. -/
theorem findSome?_of_single {m : String} {r : List (List Char) → Option Instr} {ops : List (List Char)} {i : Instr}
    (hf : formsOf m = [r]) (h : r ops = some i) : (formsOf m).findSome? (· ops) = some i := by
  rw [hf, List.findSome?_cons, h]

/-- The text of every instruction is read back, be it well-formed or not: by the one form of its mnemonic, or by its own
form among those of the mnemonic, since those before it refuse its operands. -/
theorem readLine_textChars (i : Instr) : readLine (textChars i) = some i := by
  cases i
  all_goals
    rw [textChars, readLine_textLine (by decide) (by simp [comma_not_mem_regName, comma_not_mem_hexByte,
      comma_not_mem_hexAddr, (hexDigit_ne_comma _).symm])]
  case cls | ret => rfl
  case sys | call | skp | sknp => exact findSome?_of_single rfl (by simp)
  case orVxVy | andVxVy | xorVxVy | sub | shr | subn | shl | rnd => exact findSome?_of_single rfl (by simp)
  case drw => exact findSome?_of_single rfl (readDrw_eq_some.2 ⟨_, _, _, rfl, rfl⟩)
  case jp | jpV0 => simp [formsOf_JP, List.findSome?_cons, readName]
  case seVxKk | seVxVy => simp [formsOf_SE]
  case sneVxKk | sneVxVy => simp [formsOf_SNE]
  case addVxKk | addVxVy | addIVx => simp [formsOf_ADD, readRegName_eq_none, readName]
  case ldVxKk | ldVxVy => simp [formsOf_LD]
  case ldINnn | ldDtVx | ldStVx | ldFVx | ldBVx | ldIVx => simp [formsOf_LD, readRegName_eq_none, readName]
  case ldVxDt | ldVxK | ldVxI => simp [formsOf_LD, readRegName_eq_none, readName, regName_ne, readHexByte, readDigit]

theorem textChars_injective : Function.Injective textChars := by
  intro i j h
  simpa [readLine_textChars] using congrArg readLine h

/-- A check on every answer does not change the first answer when that passes it. -/
theorem findSome?_filter_of_findSome? {α β : Type} {f : α → Option β} {p : β → Bool} {b : β} (hp : p b = true)
    {l : List α} (h : l.findSome? f = some b) : l.findSome? (fun a => (f a).filter p) = some b := by
  induction l with
  | nil => cases h
  | cons a l ih =>
    rw [List.findSome?_cons] at h ⊢
    cases hf : f a with
    | none => rw [hf] at h; exact ih h
    | some c =>
      rw [hf] at h
      obtain rfl := Option.some.inj h
      rw [Option.filter_some, if_pos hp]

theorem parseChars_textChars {i : Instr} (h : i.wf = true) : parseChars (textChars i) = some i := by
  have hread := findSome?_filter_of_findSome? h (readLine_textChars i)
  rw [parseChars_eq, ← hread]
  congr 1
  funext form
  split <;> rfl

end Sys2Proof.Machine
end

section
/-! SUPPORT. The statements about the text form, settled from the laws above. -/

open Sys2Proof Sys2Proof.Machine

/-- Settles O5: a text is read back, well-formed or not, as the one instruction it came from. -/
theorem textFormIsUnique : Obligations.TextFormIsUnique :=
  fun _ _ h => textChars_injective (String.ofList_injective h)

/-- Settles O56: the text of an instruction is read by the form it came from, and a form reads only what it renders. -/
theorem textParsesBack : Obligations.TextParsesBack := by
  refine ⟨fun i hw => ?_, fun text i h => ?_⟩
  · rw [parseText, instrText, String.toList_ofList]
    exact parseChars_textChars hw
  · obtain ⟨hw, ht⟩ := textChars_of_parseChars h
    exact ⟨hw, by rw [instrText, ht, String.ofList_toList]⟩

end

section
/-! SUPPORT. What the statements about control transfer rest on: the words of format A, the frame of a pc update, and the
cases of SYS and RET. -/

namespace Sys2Proof

/-- The instructions of format A (R41): a word made of a family and an Address decodes to the well-formed instruction
with those nibbles. -/
theorem decodeWord_of_formatA {a : Nibble} {nnn : Addr} {i : Instr} (hw : i.wf = true)
    (he : encodeNibbles i = formatA a nnn) : decodeWord (a ++ nnn) = .ok i := by
  have h := decodeNibbles_encodeNibbles hw
  rw [he] at h
  exact (decodeWord_addr a nnn).trans h

end Sys2Proof

namespace Sys2Proof.Machine

variable {s : State}

/-- A pc update, be it an advance, a skip or a jump, leaves every part of a frame. -/
theorem sameBut_setPc (ps : List Part) (p : Word) (s : State) : SameBut ps s (setPc p s) :=
  sameBut_of rfl (.inr rfl) (.inr rfl) (.inr ⟨rfl, rfl⟩) (.inr ⟨rfl, rfl, rfl⟩) (.inr rfl) (.inr fun _ => rfl)
    (.inr ⟨rfl, rfl, rfl⟩)

theorem jumpTo_pc_toNat (a : Addr) (s : State) : (jumpTo a s).pc.toNat = a.toNat :=
  BitVec.toNat_setWidth_of_le (by decide)

/-! ### SYS (R52) -/

theorem exec_sys_fault (nnn : Addr) (h : s.cfg.sysPolicy = .fault) :
    exec (.sys nnn) s = .next (takeError (.unsupportedSys nnn) s) := by
  simp only [exec, execSys, h]

theorem exec_sys_nop (nnn : Addr) (h : s.cfg.sysPolicy = .nop) : exec (.sys nnn) s = .next (advance s) := by
  simp only [exec, execSys, h]

/-! ### RET (R55) -/

theorem exec_ret_empty (h : s.sp = 0) : exec .ret s = .next (takeError .stackUnderflow s) := by
  simp only [exec, execRet, pop_empty h]

theorem exec_ret_pops {n : Nat} {target : Addr} (hsp : s.sp = n + 1) (htop : s.stack[n]? = some target) :
    exec .ret s = .next (jumpTo target { s with sp := n }) := by
  have hne : s.sp ≠ 0 := by omega
  simp [exec, execRet, pop_ok hne, stackTop, hsp, htop]

end Sys2Proof.Machine
end

section
/-! SUPPORT. The statements about control transfer, settled from the laws above. -/

open Sys2Proof Sys2Proof.Machine

/-- Settles O30: the jump is a pc update to the Address. -/
theorem jpSetsPc : Obligations.JpSetsPc :=
  fun nnn s => ⟨decodeWord_of_formatA rfl rfl, _, rfl, sameBut_setPc _ _ s, jumpTo_pc_toNat nnn s⟩

/-- Settles O31: the jump is a pc update, and the sum of 12 and 8 bits fits the 16 bits of the pc. -/
theorem jpV0AddsV0 : Obligations.JpV0AddsV0 :=
  fun nnn s => ⟨decodeWord_of_formatA rfl rfl, _, rfl, sameBut_setPc _ _ s, jumpV0Target_toNat s nnn⟩

/-- Settles O32: SYS is well-formed but for the words of CLS and RET, and each policy has its own outcome. -/
theorem sysFollowsItsPolicy : Obligations.SysFollowsItsPolicy := by
  intro nnn s
  refine ⟨fun hcls hret => decodeWord_of_formatA ?_ rfl, exec_sys_fault nnn, fun hnop => ?_⟩
  · simp [Instr.wf, hcls, hret]
  · exact ⟨_, exec_sys_nop nnn hnop, sameBut_setPc _ _ s, rfl⟩

/-- Settles O34, by whether the stack is empty; a pop lowers sp and erases no entry. -/
theorem retPopsOrUnderflows : Obligations.RetPopsOrUnderflows := by
  refine ⟨by decide, fun s => ⟨exec_ret_empty, fun n target hsp htop => ?_⟩⟩
  refine ⟨_, exec_ret_pops hsp htop, ?_, jumpTo_pc_toNat target _, rfl, rfl⟩
  exact sameBut_of rfl (.inr rfl) (.inr rfl) (.inl (by simp)) (.inr ⟨rfl, rfl, rfl⟩) (.inr rfl) (.inr fun _ => rfl)
    (.inr ⟨rfl, rfl, rfl⟩)

/-- Settles O35: the entry that the call pushes (O33) is the one that the return pops (O34). -/
theorem returnComesBackAfterTheCall : Obligations.ReturnComesBackAfterTheCall := by
  intro nnn s t u hlen hsp hpc hcall husp hustack
  obtain ⟨-, -, -, hpush⟩ := callPushesReturnAddress nnn s hlen
  obtain ⟨t', ht', -, -, htsp, htop, -⟩ := hpush hsp hpc
  obtain rfl := Host.Outcome.next.inj (ht'.symm.trans hcall)
  obtain ⟨target, htarget, hvalue⟩ := Option.map_eq_some_iff.1 htop
  obtain ⟨-, hret⟩ := retPopsOrUnderflows
  obtain ⟨-, hpop⟩ := hret u
  obtain ⟨w, hw, -, hwpc, hwsp, -⟩ := hpop s.sp target (husp.trans htsp) (hustack ▸ htarget)
  refine ⟨w, hw, BitVec.eq_of_toNat_eq ?_, hwsp⟩
  calc w.pc.toNat = s.pc.toNat + 2 := hwpc.trans hvalue
    _ = (s.pc + 2).toNat := by bv_omega

end

section
/-! SUPPORT. What the statements about the register skips rest on: the words of formats XK and XY, and the pc a skip
selects. -/

namespace Sys2Proof

/-- The instructions of format XK (R41): a word made of a family, a register and an Immediate decodes to the well-formed
instruction with those nibbles. -/
theorem decodeWord_of_formatXK {a x : Nibble} {kk : Byte} {i : Instr} (hw : i.wf = true)
    (he : encodeNibbles i = formatXK a x kk) : decodeWord (a ++ x ++ kk) = .ok i := by
  have h := decodeNibbles_encodeNibbles hw
  rw [he] at h
  exact (decodeWord_byte a x kk).trans h

/-- The instructions of formats N, XY and XYN (R41): a word made of four nibbles decodes to the well-formed instruction
with those nibbles. -/
theorem decodeWord_of_nibbles {a b c d : Nibble} {i : Instr} (hw : i.wf = true)
    (he : encodeNibbles i = ⟨a, b, c, d⟩) : decodeWord (a ++ b ++ c ++ d) = .ok i := by
  have h := decodeNibbles_encodeNibbles hw
  rw [he] at h
  exact (decodeWord_nibbles a b c d).trans h

end Sys2Proof

namespace Sys2Proof.Machine

variable {s : State} {i : Instr} {taken : Bool} {P : Prop} [Decidable P]

/-- The pc of a skip, by the proposition its condition decides. -/
theorem skipIf_pc_of_iff (h : taken = true ↔ P) : (skipIf taken s).pc = if P then s.pc + 4 else s.pc + 2 := by
  rw [skipIf_pc, apply_ite (s.pc + ·)]
  exact if_congr h rfl rfl

/-- An instruction that skips when `P` holds selects the pc by `P` and changes nothing else. -/
theorem exec_skips_if (hx : exec i s = .next (skipIf taken s)) (h : taken = true ↔ P) :
    ∃ t, exec i s = .next t ∧ SameBut [] s t ∧ t.pc = if P then s.pc + 4 else s.pc + 2 :=
  ⟨_, hx, sameBut_setPc _ _ s, skipIf_pc_of_iff h⟩

/-- An instruction that skips unless `P` holds selects the pc by `P` and changes nothing else. -/
theorem exec_skips_unless (hx : exec i s = .next (skipIf taken s)) (h : taken = true ↔ ¬ P) :
    ∃ t, exec i s = .next t ∧ SameBut [] s t ∧ t.pc = if P then s.pc + 2 else s.pc + 4 := by
  rw [← ite_not P]
  exact exec_skips_if hx h

end Sys2Proof.Machine
end

section
/-! SUPPORT. The statement about the register skips, settled from the laws above. -/

open Sys2Proof Sys2Proof.Machine

/-- Settles O29: SE skips if the operands are equal, SNE unless they are, and a skip is a pc update. -/
theorem registerSkipsSelectPc : Obligations.RegisterSkipsSelectPc :=
  fun _ _ _ _ =>
    ⟨⟨decodeWord_of_formatXK rfl rfl, exec_skips_if rfl beq_iff_eq⟩,
     ⟨decodeWord_of_formatXK rfl rfl, exec_skips_unless rfl bne_iff_ne⟩,
     ⟨decodeWord_of_nibbles rfl rfl, exec_skips_if rfl beq_iff_eq⟩,
     ⟨decodeWord_of_nibbles rfl rfl, exec_skips_unless rfl bne_iff_ne⟩⟩

end

section
/-! SUPPORT. What the statements about register loads and immediate addition rest on: the state after one register is
written and the pc advanced. -/

namespace Sys2Proof.Machine

variable {s : State} {i : Instr} {x : RegId} {b : Byte}

/-- A write of one register and the pc update after it leave every part of a frame but the registers. -/
theorem sameBut_advance_writeReg (x : RegId) (b : Byte) (s : State) : SameBut [.regs] s (advance (writeReg x b s)) :=
  sameBut_of rfl (.inl (by simp)) (.inr rfl) (.inr ⟨rfl, rfl⟩) (.inr ⟨rfl, rfl, rfl⟩) (.inr rfl) (.inr fun _ => rfl)
    (.inr ⟨rfl, rfl, rfl⟩)

/-- The instructions that write one register and advance: their pc, their frame, and what every register reads. -/
theorem exec_writes_reg (hx : exec i s = .next (advance (writeReg x b s))) :
    ∃ t, exec i s = .next t ∧ t.pc = s.pc + 2 ∧ SameBut [.regs] s t ∧
      ∀ r, readReg r t = if r = x then b else readReg r s :=
  ⟨_, hx, rfl, sameBut_advance_writeReg x b s, fun r => readReg_writeReg s x r b⟩

end Sys2Proof.Machine
end

section
/-! SUPPORT. The statements about register loads and immediate addition, settled from the laws above. -/

open Sys2Proof Sys2Proof.Machine

/-- Settles O23: both loads write one register and advance, with the Immediate or the old value of Vy. -/
theorem ldVxLoadsImmediateOrRegister : Obligations.LdVxLoadsImmediateOrRegister :=
  fun _ _ _ _ =>
    ⟨⟨decodeWord_of_formatXK rfl rfl, exec_writes_reg rfl⟩,
     ⟨decodeWord_of_nibbles rfl rfl, exec_writes_reg rfl⟩⟩

/-- Settles O24: only Vx is written, and the sum of two bytes is a byte, so it is taken modulo 256. -/
theorem addVxKkWrapsWithoutFlag : Obligations.AddVxKkWrapsWithoutFlag := by
  intro x kk s
  obtain ⟨t, hexec, hpc, hframe, hregs⟩ := exec_writes_reg (i := .addVxKk x kk) (s := s) rfl
  refine ⟨decodeWord_of_formatXK rfl rfl, t, hexec, hpc, hframe, fun r => ?_⟩
  rw [hregs r, apply_ite BitVec.toNat, BitVec.toNat_add]

end

section
/-! SUPPORT. What the statements about the ALU rest on: the bits one register takes, and the numbers Vx and VF take from an
instruction that writes a result and then its flag. -/

namespace Sys2Proof.Machine

variable {s : State} {i : Instr} {x : RegId} {b f : Byte}

/-! ### One register, bit by bit (R66, R67, R68) -/

/-- An instruction that writes one register and advances, by the bits of what it writes. -/
theorem exec_writes_bits {bit : Nat → Bool} (hx : exec i s = .next (advance (writeReg x b s)))
    (hb : ∀ k, b.getLsbD k = bit k) :
    ∃ t, exec i s = .next t ∧ t.pc = s.pc + 2 ∧ SameBut [.regs] s t ∧
      ∀ r, if r = x then ∀ k, (readReg x t).getLsbD k = bit k else readReg r t = readReg r s := by
  obtain ⟨t, hexec, hpc, hframe, hregs⟩ := exec_writes_reg hx
  refine ⟨t, hexec, hpc, hframe, fun r => ?_⟩
  split
  case isTrue => rwa [hregs x, if_pos rfl]
  case isFalse hr => rw [hregs r, if_neg hr]

/-! ### A result and its flag (R18, R64, D10) -/

/-- A result, its flag and the pc update after them leave every part of a frame but the registers. -/
theorem sameBut_advance_writeResultAndFlag (x : RegId) (b f : Byte) (s : State) :
    SameBut [.regs] s (advance (writeResultAndFlag x b f s)) :=
  sameBut_of rfl (.inl (by simp)) (.inr rfl) (.inr ⟨rfl, rfl⟩) (.inr ⟨rfl, rfl, rfl⟩) (.inr rfl) (.inr fun _ => rfl)
    (.inr ⟨rfl, rfl, rfl⟩)

/-- An instruction that writes a result and then its flag, by the numbers it writes: VF ends as the flag whichever register
the destination is. -/
theorem exec_writes_result_and_flag {result flag : Nat}
    (hx : exec i s = .next (advance (writeResultAndFlag x b f s))) (hb : b.toNat = result) (hf : f.toNat = flag) :
    ∃ t, exec i s = .next t ∧ t.pc = s.pc + 2 ∧ SameBut [.regs] s t ∧
      ∀ r, (readReg r t).toNat = if r = 0xF#4 then flag else if r = x then result else (readReg r s).toNat := by
  refine ⟨_, hx, rfl, sameBut_advance_writeResultAndFlag x b f s, fun r => ?_⟩
  rw [readReg_advance, readReg_writeResultAndFlag, apply_ite BitVec.toNat, apply_ite BitVec.toNat, hb, hf]

/-! ### Flags and results as numbers (R69 to R73) -/

@[simp] theorem flagByte_toNat (c : Bool) : (flagByte c).toNat = c.toNat := by cases c <;> rfl

theorem flagByte_decide_toNat (P : Prop) [Decidable P] : (flagByte (decide P)).toNat = if P then 1 else 0 := by
  rw [flagByte_toNat, Bool.toNat, Bool.cond_decide]

theorem lowBitFlag_toNat (b : Byte) : (lowBitFlag b).toNat = b.toNat % 2 := by
  rw [lowBitFlag, flagByte_toNat, BitVec.getLsbD, Nat.toNat_testBit, Nat.pow_zero, Nat.div_one]

/-- Bit 7 is the top bit of a byte, so nothing is left above it. -/
theorem highBitFlag_toNat (b : Byte) : (highBitFlag b).toNat = b.toNat / 128 := by
  have hb := b.isLt
  rw [highBitFlag, flagByte_toNat, BitVec.getLsbD, Nat.toNat_testBit]
  omega

/-- A difference modulo 256, by whether it borrows (R70, R72). -/
theorem toNat_sub_eq_ite (p q : Byte) :
    (p - q).toNat = if p.toNat ≥ q.toNat then p.toNat - q.toNat else p.toNat + 256 - q.toNat := by
  have hp := p.isLt
  have hq := q.isLt
  rw [BitVec.toNat_sub]
  split <;> omega

theorem shiftOperand_toNat (x y : RegId) (s : State) : (shiftOperand x y s).toNat =
    if s.cfg.shiftReadsVy then (readReg y s).toNat else (readReg x s).toNat :=
  apply_ite BitVec.toNat ..

theorem toNat_shiftRight_one (b : Byte) : (b >>> 1).toNat = b.toNat / 2 := by
  rw [BitVec.toNat_ushiftRight, Nat.shiftRight_one]

theorem toNat_shiftLeft_one (b : Byte) : (b <<< 1).toNat = b.toNat * 2 % 256 := by
  rw [BitVec.toNat_shiftLeft, Nat.shiftLeft_eq, Nat.pow_one]

end Sys2Proof.Machine
end

section
/-! SUPPORT. The statements about the ALU, settled from the laws above. -/

open Sys2Proof Sys2Proof.Machine

/-- Settles O25: each of the three writes Vx alone, with the word whose bits are the bitwise operation of the old bits. -/
theorem logicIsBitwiseAndKeepsVF : Obligations.LogicIsBitwiseAndKeepsVF :=
  fun _ _ _ =>
    ⟨⟨decodeWord_of_nibbles rfl rfl, exec_writes_bits rfl fun _ => BitVec.getLsbD_or⟩,
     ⟨decodeWord_of_nibbles rfl rfl, exec_writes_bits rfl fun _ => BitVec.getLsbD_and⟩,
     ⟨decodeWord_of_nibbles rfl rfl, exec_writes_bits rfl fun _ => BitVec.getLsbD_xor⟩⟩

/-- Settles O26: the sum of two bytes is taken modulo 256, and VF ends as the carry of the old operands. -/
theorem addVxVyWrapsAndSetsCarry : Obligations.AddVxVyWrapsAndSetsCarry :=
  fun _ _ _ =>
    ⟨decodeWord_of_nibbles rfl rfl,
     exec_writes_result_and_flag rfl (BitVec.toNat_add ..) (flagByte_decide_toNat _)⟩

/-- Settles O27: one difference and one flag, with the minuend Vx for SUB and Vy for SUBN. -/
theorem subtractWrapsAndSetsNoBorrow : Obligations.SubtractWrapsAndSetsNoBorrow :=
  fun _ _ _ =>
    ⟨⟨decodeWord_of_nibbles rfl rfl,
      exec_writes_result_and_flag rfl (toNat_sub_eq_ite ..) (flagByte_decide_toNat _)⟩,
     ⟨decodeWord_of_nibbles rfl rfl,
      exec_writes_result_and_flag rfl (toNat_sub_eq_ite ..) (flagByte_decide_toNat _)⟩⟩

/-- Settles O28: the operand is Vy or Vx by the parameter; both the shifted result and the bit moved out are of it. -/
theorem shiftsMoveOneBitIntoVF : Obligations.ShiftsMoveOneBitIntoVF := by
  intro x y s
  rw [← shiftOperand_toNat x y s]
  exact
    ⟨⟨decodeWord_of_nibbles rfl rfl,
      exec_writes_result_and_flag rfl (toNat_shiftRight_one _) (lowBitFlag_toNat _)⟩,
     ⟨decodeWord_of_nibbles rfl rfl,
      exec_writes_result_and_flag rfl (toNat_shiftLeft_one _) (highBitFlag_toNat _)⟩⟩

end

section
/-! SUPPORT. What the statements about the address register rest on: the state after I is written and the pc advanced,
and the two cases of ADD I. -/

namespace Sys2Proof.Machine

variable {s : State} {i : Instr} {a : Addr} {x : RegId}

/-- A write of I and the pc update after it leave every part of a frame but I. -/
theorem sameBut_advance_writeI (a : Addr) (s : State) : SameBut [.index] s (advance (writeI a s)) :=
  sameBut_of rfl (.inr rfl) (.inl (by simp)) (.inr ⟨rfl, rfl⟩) (.inr ⟨rfl, rfl, rfl⟩) (.inr rfl) (.inr fun _ => rfl)
    (.inr ⟨rfl, rfl, rfl⟩)

/-- The instructions that write I and advance: their pc, their frame, and the Address I holds. -/
theorem exec_writes_index (hx : exec i s = .next (advance (writeI a s))) :
    ∃ t, exec i s = .next t ∧ t.pc = s.pc + 2 ∧ SameBut [.index] s t ∧ t.i = a :=
  ⟨_, hx, rfl, sameBut_advance_writeI a s, rfl⟩

/-! ### ADD I (R75, D14) -/

theorem exec_addIVx_fits (h : indexSum x s ≤ 0xFFF) :
    exec (.addIVx x) s = .next (advance (writeI (BitVec.ofNat 12 (indexSum x s)) s)) := by
  simp only [exec, execAddIVx, if_neg (Nat.not_lt.mpr h)]

theorem exec_addIVx_beyond (h : indexSum x s > 0xFFF) :
    exec (.addIVx x) s = .next (takeError (.unspecified .addIBeyond) s) := by
  simp only [exec, execAddIVx, if_pos h]

end Sys2Proof.Machine
end

section
/-! SUPPORT. The statements about the address register, settled from the laws above. -/

open Sys2Proof Sys2Proof.Machine

/-- Settles O36: the load writes I and advances. -/
theorem ldISetsI : Obligations.LdISetsI :=
  fun _ _ => ⟨decodeWord_of_formatA rfl rfl, exec_writes_index rfl⟩

/-- Settles O37, by whether the sum fits: a sum that does needs no reduction to 12 bits, and one that does not is an
error. -/
theorem addIAddsOrHalts : Obligations.AddIAddsOrHalts := by
  refine fun x s => ⟨decodeWord_of_formatXK rfl rfl, fun hfits => ?_, exec_addIVx_beyond⟩
  obtain ⟨t, hexec, hpc, hframe, hi⟩ := exec_writes_index (exec_addIVx_fits hfits)
  refine ⟨t, hexec, hpc, hframe, ?_⟩
  rw [hi, BitVec.toNat_ofNat]
  exact Nat.mod_eq_of_lt (Nat.lt_succ_of_le hfits)

end

section
/-! SUPPORT. What the statements about the timer instructions rest on: the state after the counters are written and the pc
advanced, and the tone as a condition on ST. -/

namespace Sys2Proof.Machine

variable {s : State} {i : Instr} {d e : Byte} {p : Nat}

/-- Setting one counter is setting the timers with the other counter and the phase kept (R78, D25). -/
theorem writeDt_eq_setTimers (b : Byte) (s : State) : writeDt b s = setTimers b s.st s.phase s := rfl

/-- Setting one counter is setting the timers with the other counter and the phase kept (R79, D25). -/
theorem writeSt_eq_setTimers (b : Byte) (s : State) : writeSt b s = setTimers s.dt b s.phase s := rfl

/-- A write of the timers and the pc update after it leave every part of a frame but the timers. -/
theorem sameBut_advance_setTimers (d e : Byte) (p : Nat) (s : State) :
    SameBut [.timers] s (advance (setTimers d e p s)) :=
  sameBut_of rfl (.inr rfl) (.inr rfl) (.inr ⟨rfl, rfl⟩) (.inl (by simp)) (.inr rfl) (.inr fun _ => rfl)
    (.inr ⟨rfl, rfl, rfl⟩)

/-- The instructions that write the timers and advance: their pc, their frame, and what the timers hold. -/
theorem exec_writes_timers (hx : exec i s = .next (advance (setTimers d e p s))) :
    ∃ t, exec i s = .next t ∧ t.pc = s.pc + 2 ∧ SameBut [.timers] s t ∧ t.dt = d ∧ t.st = e ∧ t.phase = p :=
  ⟨_, hx, rfl, sameBut_advance_setTimers d e p s, rfl, rfl, rfl⟩

theorem exec_ldDtVx (x : RegId) (s : State) :
    exec (.ldDtVx x) s = .next (advance (setTimers (readReg x s) s.st s.phase s)) := by
  rw [← writeDt_eq_setTimers]
  rfl

theorem exec_ldStVx (x : RegId) (s : State) :
    exec (.ldStVx x) s = .next (advance (setTimers s.dt (readReg x s) s.phase s)) := by
  rw [← writeSt_eq_setTimers]
  rfl

/-- The tone is on while ST is not 0 (R100, D27). -/
theorem toneOn_iff (s : State) : toneOn s = true ↔ s.st ≠ 0 := bne_iff_ne

end Sys2Proof.Machine
end

section
/-! SUPPORT. The statements about the timer instructions, settled from the laws above. -/

open Sys2Proof Sys2Proof.Machine

/-- Settles O21: the read of DT writes one register, with the counter, and advances. -/
theorem ldVxDtCopiesDelayCounter : Obligations.LdVxDtCopiesDelayCounter :=
  fun _ _ => ⟨decodeWord_of_formatXK rfl rfl, exec_writes_reg rfl⟩

/-- Settles O22: both loads write the timers, each with its own counter replaced, and the tone follows the new ST. -/
theorem ldDtAndLdStSetOneCounter : Obligations.LdDtAndLdStSetOneCounter := by
  refine fun x s =>
    ⟨⟨decodeWord_of_formatXK rfl rfl, exec_writes_timers (exec_ldDtVx x s)⟩, decodeWord_of_formatXK rfl rfl, ?_⟩
  obtain ⟨t, hexec, hpc, hframe, hdt, hst, hphase⟩ := exec_writes_timers (exec_ldStVx x s)
  refine ⟨t, hexec, hpc, hframe, hst, hdt, hphase, ?_⟩
  rw [toneOn_iff, hst]

end

section
/-! SUPPORT. What the statements about input and the random value rest on: an answer that is supplied is the one used, the
frames of a request and what follows it, and that the key wait reads no memory. -/

namespace Sys2Proof.Machine

variable {s : State} {i : Instr} {x : RegId} {k : Byte}

/-! ### The supplied answers (R13, R80, R84) -/

theorem keyPressedAnswer_supplied {p : Bool} {rest : List Bool} (k : Byte) (h : s.inputs.keyPressed = p :: rest) :
    keyPressedAnswer k s = p := by
  rw [keyPressedAnswer, h, List.headD_cons]

theorem randomAnswer_supplied {b : Byte} {rest : List Byte} (h : s.inputs.randomByte = b :: rest) :
    randomAnswer s = b := by
  rw [randomAnswer, h, List.headD_cons]

/-! ### The key query and its skip (R80, R81) -/

/-- The pc of a skip on the opposite of a condition. -/
theorem skipIf_not_pc (c : Bool) (s : State) : (skipIf (!c) s).pc = if c then s.pc + 2 else s.pc + 4 := by
  cases c <;> rfl

/-- The instructions that ask for one key and skip: the pc they select, the query, and all else unchanged. -/
theorem exec_asks_key_and_skips {taken : Bool} {target : Word}
    (hx : exec i s = .next (skipIf taken (askKeyPressed k s))) (hpc : (skipIf taken s).pc = target) :
    ∃ t, exec i s = .next t ∧ SameBut [.ports] s t ∧ t.pc = target ∧ t.requests = s.requests ++ [.keyPressed k] ∧
      t.inputs = { s.inputs with keyPressed := s.inputs.keyPressed.tail } := by
  refine ⟨_, hx, ?_, hpc, rfl, rfl⟩
  exact sameBut_of rfl (.inr rfl) (.inr rfl) (.inr ⟨rfl, rfl⟩) (.inr ⟨rfl, rfl, rfl⟩) (.inr rfl) (.inr fun _ => rfl)
    (.inl (by simp))

/-! ### The key wait (R82, R83) -/

theorem sameBut_setStatus (r : Status) (s : State) : SameBut [.status] s (setStatus r s) :=
  sameBut_of rfl (.inr rfl) (.inr rfl) (.inr ⟨rfl, rfl⟩) (.inr ⟨rfl, rfl, rfl⟩) (.inl (by simp)) (.inr fun _ => rfl)
    (.inr ⟨rfl, rfl, rfl⟩)

/-- The poll neither reads nor writes memory, whatever the answer. -/
theorem keyWaitPoll_with_mem (x : RegId) (s : State) (m : Memory) :
    keyWaitPoll x { s with mem := m } = { keyWaitPoll x s with mem := m } := by
  have hask : keyEventAnswer { s with mem := m } = keyEventAnswer s := rfl
  cases h : keyEventAnswer s with
  | none => rw [keyWaitPoll_none h, keyWaitPoll_none (hask.trans h)]; rfl
  | some k => rw [keyWaitPoll_some h, keyWaitPoll_some (hask.trans h)]; rfl

/-- Neither the poll nor the timer advance after it depends on memory. -/
theorem step_with_mem_of_awaitingKey {t : State} (hs : s.status = .awaitingKey x) (h : step s = .next t) (m : Memory) :
    step { s with mem := m } = .next { t with mem := m } := by
  obtain rfl := Host.Outcome.next.inj ((step_of_awaitingKey hs).symm.trans h)
  rw [step_of_awaitingKey (s := { s with mem := m }) hs, keyWaitPoll_with_mem]
  rfl

/-! ### The random byte (R84) -/

/-- A random byte asked for, a register written and the pc advanced leave every part of a frame but the registers and the
ports. -/
theorem sameBut_advance_writeReg_askRandom (x : RegId) (b : Byte) (s : State) :
    SameBut [.regs, .ports] s (advance (writeReg x b (askRandom s))) :=
  sameBut_of rfl (.inl (by simp)) (.inr rfl) (.inr ⟨rfl, rfl⟩) (.inr ⟨rfl, rfl, rfl⟩) (.inr rfl) (.inr fun _ => rfl)
    (.inl (by simp))

end Sys2Proof.Machine
end

section
/-! SUPPORT. The statements about input and the random value, settled from the laws above. -/

open Sys2Proof Sys2Proof.Machine

/-- Settles O39: both instructions ask for the key in Vx and skip, on the answer and on its opposite. -/
theorem keySkipsFollowTheAnswer : Obligations.KeySkipsFollowTheAnswer :=
  fun x s =>
    ⟨keyPressedAnswer (readReg x s) s, fun _ _ => keyPressedAnswer_supplied _,
     ⟨decodeWord_of_formatXK rfl rfl, exec_asks_key_and_skips rfl (skipIf_pc_of_iff Iff.rfl)⟩,
     ⟨decodeWord_of_formatXK rfl rfl, exec_asks_key_and_skips rfl (skipIf_not_pc _ s)⟩⟩

/-- Settles O40: the execute stage sets the status alone, and in the wait an iteration is a poll and a timer advance,
which read no memory. -/
theorem ldVxKSuspends : Obligations.LdVxKSuspends :=
  fun _ s =>
    ⟨decodeWord_of_formatXK rfl rfl, ⟨_, rfl, sameBut_setStatus _ s, rfl, rfl⟩,
     fun _ _ m hs h => step_with_mem_of_awaitingKey hs h m⟩

/-- Settles O42: the byte asked for is masked before it is written, so Vx takes the and of the bits; the request changes
no register. -/
theorem rndMasksTheRandomByte : Obligations.RndMasksTheRandomByte := by
  refine fun x kk s => ⟨decodeWord_of_formatXK rfl rfl, randomAnswer s, _, fun _ _ => randomAnswer_supplied, rfl, rfl,
    sameBut_advance_writeReg_askRandom x _ s, rfl, rfl, fun r => ?_⟩
  rw [readReg_advance, readReg_advance, readReg_writeReg, readReg_writeReg, if_pos rfl, readReg_askRandom]
  split
  case isTrue => exact fun _ => BitVec.getLsbD_and
  case isFalse => rfl

end

section
/-! SUPPORT. What the statements about display requests and memory blocks rest on: frames put together, the frames of a
request and of a memory write, and the two outcomes of each instruction that uses memory. -/

namespace Sys2Proof.Machine

/-! ### Frames one after the other -/

theorem Part.Same.trans {p : Part} {s t u : State} (h : p.Same s t) (h' : p.Same t u) : p.Same s u := by
  cases p with
  | regs | index | status => exact Eq.trans h' h
  | stack =>
    obtain ⟨hsp, hstack⟩ := h
    obtain ⟨hsp', hstack'⟩ := h'
    exact ⟨hsp'.trans hsp, hstack'.trans hstack⟩
  | timers =>
    obtain ⟨hdt, hst, hphase⟩ := h
    obtain ⟨hdt', hst', hphase'⟩ := h'
    exact ⟨hdt'.trans hdt, hst'.trans hst, hphase'.trans hphase⟩
  | memory => exact fun a => (h' a).trans (h a)
  | ports =>
    obtain ⟨hin, hdraws, hreq⟩ := h
    obtain ⟨hin', hdraws', hreq'⟩ := h'
    exact ⟨hin'.trans hin, hdraws'.trans hdraws, hreq'.trans hreq⟩

theorem SameBut.refl (ps : List Part) (s : State) : SameBut ps s s := sameBut_setPc ps s.pc s

theorem SameBut.trans {ps : List Part} {s t u : State} (h : SameBut ps s t) (h' : SameBut ps t u) : SameBut ps s u := by
  obtain ⟨hcfg, hparts⟩ := h
  obtain ⟨hcfg', hparts'⟩ := h'
  exact ⟨hcfg'.trans hcfg, fun p hp => (hparts p hp).trans (hparts' p hp)⟩

variable {s : State} {x y : RegId} {n : Nibble}

/-! ### Frames of requests and memory writes -/

theorem sameBut_askClear (s : State) : SameBut [.ports] s (askClear s) :=
  sameBut_of rfl (.inr rfl) (.inr rfl) (.inr ⟨rfl, rfl⟩) (.inr ⟨rfl, rfl, rfl⟩) (.inr rfl) (.inr fun _ => rfl)
    (.inl (by simp))

theorem sameBut_writeFlag_askDraw (f a b : Byte) (rows : List Byte) (s : State) :
    SameBut [.regs, .ports] s (writeFlag f (askDraw a b rows s)) :=
  sameBut_of rfl (.inl (by simp)) (.inr rfl) (.inr ⟨rfl, rfl⟩) (.inr ⟨rfl, rfl, rfl⟩) (.inr rfl) (.inr fun _ => rfl)
    (.inl (by simp))

theorem sameBut_mem (m : Memory) (s : State) : SameBut [.memory] s { s with mem := m } :=
  sameBut_of rfl (.inr rfl) (.inr rfl) (.inr ⟨rfl, rfl⟩) (.inr ⟨rfl, rfl, rfl⟩) (.inr rfl) (.inl (by simp))
    (.inr ⟨rfl, rfl, rfl⟩)

theorem sameBut_writeRegsFrom (j : Nat) (bs : List Byte) (s : State) : SameBut [.regs] s (writeRegsFrom j bs s) := by
  rw [writeRegsFrom_eq]
  exact sameBut_of rfl (.inl (by simp)) (.inr rfl) (.inr ⟨rfl, rfl⟩) (.inr ⟨rfl, rfl, rfl⟩) (.inr rfl)
    (.inr fun _ => rfl) (.inr ⟨rfl, rfl, rfl⟩)

/-- The pc update that ends an instruction keeps its frame. -/
theorem SameBut.advance {ps : List Part} {t : State} (h : SameBut ps s t) : SameBut ps s (advance t) :=
  h.trans (sameBut_setPc ps _ t)

/-- A read that begins inside memory can only run past its end (R30). -/
theorem memRead_error_addr {a : Addr} {k : Nat} (h : a.toNat + k > 0x1000) :
    memRead a.toNat k s = .error (.outOfBoundsAccess 0x1000#16) := by
  have ha := a.isLt
  rw [memRead_error s (by omega) h, Nat.max_eq_right (by omega)]

/-! ### DRW (R86) -/

theorem collisionAnswer_supplied {c : Bool} {rest : List Bool} (h : s.inputs.collision = c :: rest) :
    collisionAnswer s = c := by
  rw [collisionAnswer, h, List.headD_cons]

theorem exec_drw_sends (h : s.i.toNat + n.toNat ≤ 0x1000) :
    exec (.drw x y n) s = .next (advance (writeFlag (flagByte (collisionAnswer s)) (askDraw (readReg x s) (readReg y s)
      ((List.range n.toNat).map fun j => readByte (s.i.toNat + j) s) s))) := by
  simp only [exec, execDrw, memRead_ok s (.inr h)]

theorem exec_drw_beyond (h : s.i.toNat + n.toNat > 0x1000) :
    exec (.drw x y n) s = .next (takeError (.outOfBoundsAccess 0x1000#16) s) := by
  simp only [exec, execDrw, memRead_error_addr h]

/-! ### LD B (R87) -/

theorem exec_ldBVx_stores (h : s.i.toNat ≤ 0xFFD) :
    exec (.ldBVx x) s = .next (advance
      { s with mem := Memory.writeAll s.cfg s.mem s.i.toNat (decimalDigits (readReg x s)) }) := by
  have hb : s.i.toNat + (decimalDigits (readReg x s)).length ≤ 0x1000 := by rw [decimalDigits_length]; omega
  simp only [exec, execLdBVx, memWrite_ok s (.inr hb)]

theorem exec_ldBVx_beyond (h : s.i.toNat > 0xFFD) :
    exec (.ldBVx x) s = .next (takeError (.outOfBoundsAccess 0x1000#16) s) := by
  have hb : s.i.toNat + (decimalDigits (readReg x s)).length > 0x1000 := by rw [decimalDigits_length]; omega
  simp only [exec, execLdBVx, memWrite_error_addr hb]

/-- Each digit is below 256, so a byte holds it. -/
theorem decimalDigits_toNat (b : Byte) :
    (decimalDigits b).map BitVec.toNat = [b.toNat / 100, b.toNat / 10 % 10, b.toNat % 10] := by
  have hb := b.isLt
  simp only [decimalDigits, List.map_cons, List.map_nil, BitVec.toNat_ofNat, List.cons.injEq, and_true]
  omega

/-- The digits in memory after LD B, by their place in the list. -/
theorem readByte_digit (hw : Memory.wf s.cfg s.mem = true) (h : s.i.toNat ≤ 0xFFD) {b : Byte} {j d : Nat}
    (hd : [b.toNat / 100, b.toNat / 10 % 10, b.toNat % 10][j]? = some d) :
    (readByte (s.i.toNat + j) { s with mem := Memory.writeAll s.cfg s.mem s.i.toNat (decimalDigits b) }).toNat = d := by
  rw [← decimalDigits_toNat, List.getElem?_map, Option.map_eq_some_iff] at hd
  obtain ⟨digit, hdigit, rfl⟩ := hd
  rw [readByte_writeAll_getElem? hw (by rw [decimalDigits_length]; omega) hdigit]

/-! ### LD [I] (R88) -/

theorem exec_ldIVx_beyond (h : s.i.toNat + x.toNat > 0xFFF) :
    exec (.ldIVx x) s = .next (takeError (.outOfBoundsAccess 0x1000#16) s) := by
  have hb : s.i.toNat + (regBlock x s).length > 0x1000 := by rw [regBlock_length]; omega
  simp only [exec, execLdIVx, memWrite_error_addr hb]

/-! ### LD Vx, [I] (R89) -/

theorem exec_ldVxI_loads (h : s.i.toNat + x.toNat ≤ 0xFFF) :
    exec (.ldVxI x) s = .next (advance
      (writeRegsFrom 0 ((List.range (x.toNat + 1)).map fun j => readByte (s.i.toNat + j) s) s)) := by
  simp only [exec, execLdVxI, memRead_ok s (a := s.i.toNat) (n := x.toNat + 1) (by omega)]

theorem exec_ldVxI_beyond (h : s.i.toNat + x.toNat > 0xFFF) :
    exec (.ldVxI x) s = .next (takeError (.outOfBoundsAccess 0x1000#16) s) := by
  have hb : s.i.toNat + (x.toNat + 1) > 0x1000 := by omega
  simp only [exec, execLdVxI, memRead_error_addr hb]

/-- After the bytes `f 0, .. f x` are loaded from V0 on, a register up to Vx reads as its byte and one above as before. -/
theorem readReg_loadBlock (f : Nat → Byte) (x r : RegId) (s : State) :
    readReg r (writeRegsFrom 0 ((List.range (x.toNat + 1)).map f) s) =
      if r.toNat ≤ x.toNat then f r.toNat else readReg r s := by
  have hx := x.isLt
  rw [readReg_writeRegsFrom s 0 _ (by simp; omega), if_pos (Nat.zero_le _), Nat.sub_zero]
  split
  case isTrue hr =>
    rw [List.getD_eq_getElem?_getD, List.getElem?_map, List.getElem?_range (Nat.lt_succ_of_le hr), Option.map_some,
      Option.getD_some]
  case isFalse hr => exact List.getD_eq_default _ _ (by simp; omega)

end Sys2Proof.Machine
end

section
/-! SUPPORT. The statements about display requests and memory blocks, settled from the laws above. -/

open Sys2Proof Sys2Proof.Machine

/-- Settles O43: the request is added and the pc advances. -/
theorem clsIssuesOneClearRequest : Obligations.ClsIssuesOneClearRequest :=
  ⟨decodeWord_of_nibbles (a := 0x0#4) (b := 0x0#4) (c := 0xE#4) (d := 0x0#4) rfl rfl,
   fun s => ⟨_, rfl, rfl, (sameBut_askClear s).advance, rfl, rfl, rfl⟩⟩

/-- Settles O44, by whether the rows lie in memory: those that do are sent with the old coordinates before VF takes the
answer, and else the read raises. -/
theorem drwSendsRowsAndRecordsCollision : Obligations.DrwSendsRowsAndRecordsCollision := by
  refine fun x y n s => ⟨decodeWord_of_nibbles rfl rfl, fun h => ?_, exec_drw_beyond⟩
  refine ⟨collisionAnswer s, _, fun _ _ => collisionAnswer_supplied, exec_drw_sends h, rfl,
    (sameBut_writeFlag_askDraw ..).advance, rfl, rfl, fun r => ?_⟩
  rw [readReg_advance, readReg_writeFlag, readReg_askDraw]
  rfl

/-- Settles O45, by whether three bytes fit at I: the digits are written there, and else the write raises. -/
theorem ldBStoresDecimalDigits : Obligations.LdBStoresDecimalDigits := by
  refine fun x s hw => ⟨decodeWord_of_formatXK rfl rfl, fun h => ?_, exec_ldBVx_beyond⟩
  have hv := (readReg x s).isLt
  have hb : s.i.toNat + (decimalDigits (readReg x s)).length ≤ 0x1000 := by rw [decimalDigits_length]; omega
  refine ⟨_, exec_ldBVx_stores h, rfl, (sameBut_mem _ s).advance,
    ⟨_, _, _, ?_, ?_, ?_, ?_, readByte_digit hw h (j := 0) rfl, readByte_digit hw h (j := 1) rfl,
      readByte_digit hw h (j := 2) rfl⟩, fun a => readByte_writeAll_outside hw hb⟩
  all_goals omega

/-- Settles O46, by whether the block fits at I: V0 to Vx are written there, and else the write raises. -/
theorem ldIVxStoresTheRegisterBlock : Obligations.LdIVxStoresTheRegisterBlock := by
  refine fun x s hw => ⟨decodeWord_of_formatXK rfl rfl, fun h => ?_, exec_ldIVx_beyond⟩
  have hb : s.i.toNat + (regBlock x s).length ≤ 0x1000 := by rw [regBlock_length]; omega
  refine ⟨_, exec_ldIVx_stores h, rfl, (sameBut_mem _ s).advance, fun r hr => ?_, fun a ha => ?_⟩
  · rw [readByte_advance, readByte_stored hw h hr, BitVec.ofNat_toNat, BitVec.setWidth_eq]
  · exact readByte_writeAll_outside hw hb (by rw [regBlock_length]; omega)

/-- Settles O47, by whether the block lies in memory: its bytes are written to V0 to Vx, and else the read raises. -/
theorem ldVxILoadsTheRegisterBlock : Obligations.LdVxILoadsTheRegisterBlock := by
  refine fun x s => ⟨decodeWord_of_formatXK rfl rfl, fun h => ?_, exec_ldVxI_beyond⟩
  refine ⟨_, exec_ldVxI_loads h, ?_, (sameBut_writeRegsFrom ..).advance, fun r => readReg_loadBlock _ x r s⟩
  rw [advance_pc, writeRegsFrom_eq]
  rfl

end

section
/-! SUPPORT. What the statements about the iteration and the timers rest on: the timer advance as arithmetic on the counters
and the phase, which iterations end Halted, and the iterations of a halted core and of a program at rest. -/

namespace Sys2Proof.Machine

variable {s t : State}

/-! ### The timer advance (R23, R97, D24) -/

/-- The decrements that an advance makes: the periods of 1/60 s it completes. -/
def ticksOf (elapsed : Nat) (s : State) : Nat := (s.phase + 60 * elapsed) / 1000000000

theorem timerAdvance_dt (e : Nat) (s : State) : (timerAdvance e s).dt = countDown s.dt (ticksOf e s) := rfl

theorem timerAdvance_st (e : Nat) (s : State) : (timerAdvance e s).st = countDown s.st (ticksOf e s) := rfl

theorem timerAdvance_phase (e : Nat) (s : State) : (timerAdvance e s).phase = (s.phase + 60 * e) % 1000000000 := rfl

theorem timerAdvance_eq (e : Nat) (s : State) : timerAdvance e s =
    setTimers (countDown s.dt (ticksOf e s)) (countDown s.st (ticksOf e s)) ((s.phase + 60 * e) % 1000000000) s := rfl

/-- A counter stops at zero, as subtraction of natural numbers does. -/
theorem countDown_toNat (b : Byte) (k : Nat) : (countDown b k).toNat = b.toNat - k := by
  have hb := b.isLt
  unfold countDown
  split
  case isTrue => rw [BitVec.toNat_ofNat, Nat.mod_eq_of_lt (by omega)]
  case isFalse h => exact (Nat.sub_eq_zero_of_le (Nat.not_lt.mp h)).symm

theorem countDown_zero (b : Byte) : countDown b 0 = b :=
  BitVec.eq_of_toNat_eq (countDown_toNat b 0)

theorem countDown_countDown (b : Byte) (k l : Nat) : countDown (countDown b k) l = countDown b (k + l) :=
  BitVec.eq_of_toNat_eq (by simp only [countDown_toNat, Nat.sub_sub])

/-- The part of a period that the first advance leaves is carried into the second. -/
theorem ticksOf_add (e₁ e₂ : Nat) (s : State) :
    ticksOf e₁ s + ticksOf e₂ (timerAdvance e₁ s) = ticksOf (e₁ + e₂) s := by
  simp only [ticksOf, timerAdvance_phase]
  omega

theorem sameBut_timerAdvance (e : Nat) (s : State) : SameBut [.timers] s (timerAdvance e s) :=
  sameBut_of rfl (.inr rfl) (.inr rfl) (.inr ⟨rfl, rfl⟩) (.inl (by simp)) (.inr rfl) (.inr fun _ => rfl)
    (.inr ⟨rfl, rfl, rfl⟩)

theorem timerAdvance_timerAdvance (e₁ e₂ : Nat) (s : State) :
    timerAdvance e₂ (timerAdvance e₁ s) = timerAdvance (e₁ + e₂) s := by
  have hphase : ((s.phase + 60 * e₁) % 1000000000 + 60 * e₂) % 1000000000 =
      (s.phase + 60 * (e₁ + e₂)) % 1000000000 := by omega
  rw [timerAdvance_eq e₂, timerAdvance_eq (e₁ + e₂), timerAdvance_dt, timerAdvance_st, timerAdvance_phase,
    countDown_countDown, countDown_countDown, ticksOf_add, hphase]
  rfl

/-- No time leaves a phase in its range as it was. -/
theorem timerAdvance_zero (h : s.phase < 1000000000) : timerAdvance 0 s = s := by
  have hticks : ticksOf 0 s = 0 := Nat.div_eq_of_lt h
  rw [timerAdvance_eq, hticks, countDown_zero, countDown_zero, Nat.mul_zero, Nat.add_zero, Nat.mod_eq_of_lt h]
  rfl

/-- Advances by equal times are one advance by their sum. -/
theorem timerAdvance_iterate (h : s.phase < 1000000000) (e k : Nat) :
    (timerAdvance e)^[k] s = timerAdvance (k * e) s := by
  induction k with
  | zero => rw [Nat.zero_mul, timerAdvance_zero h]; rfl
  | succ k ih => rw [Function.iterate_succ_apply', ih, timerAdvance_timerAdvance, Nat.succ_mul]

/-! ### The iterations that end Halted (R91, R92, R94, R99) -/

theorem isHalted_of_status {r : ErrorRecord} (h : s.status = .halted r) : s.isHalted = true :=
  (isHalted_iff s).2 ⟨r, h⟩

/-- The timer module leaves the status (R97). -/
theorem isHalted_finishIteration (s : State) : (finishIteration s).isHalted = s.isHalted := by
  simp only [State.isHalted, finishIteration_status]

theorem isHalted_keyWaitPoll {x : RegId} (hs : s.status = .awaitingKey x) : (keyWaitPoll x s).isHalted = false := by
  obtain h | h := keyWaitPoll_status x s <;> simp [State.isHalted, h, hs]

/-- A completed instruction of a running core does not halt it. -/
theorem Completed.isHalted {i : Instr} (h : Completed i s t) (hs : s.status = .running) : t.isHalted = false := by
  obtain hst | ⟨x, -, rfl⟩ := h.status
  · simp [State.isHalted, hst, hs]
  · rfl

/-- A core that an iteration halts was running and took an error in the state the iteration began in. -/
theorem step_halts (h : step s = .next t) (hs : s.isHalted = false) (ht : t.isHalted = true) :
    s.status = .running ∧ ∃ e, t = takeError e s := by
  obtain ⟨r, hr, -⟩ | ⟨x, hx, h'⟩ | ⟨hrun, -, h'⟩ | ⟨w, hrun, -, -, h'⟩ | ⟨i, u, hrun, -, hu, h'⟩ := step_cases s
  · simp [isHalted_of_status hr] at hs
  · obtain rfl := Host.Outcome.next.inj (h'.symm.trans h)
    simp [isHalted_finishIteration, isHalted_keyWaitPoll hx] at ht
  · exact ⟨hrun, _, Host.Outcome.next.inj (h.symm.trans h')⟩
  · exact ⟨hrun, _, Host.Outcome.next.inj (h.symm.trans h')⟩
  · obtain rfl := Host.Outcome.next.inj (h'.symm.trans h)
    obtain ⟨e, he⟩ | ⟨v, hv, hc⟩ := exec_cases i s
    · obtain rfl := Host.Outcome.next.inj (he.symm.trans hu)
      exact ⟨hrun, e, finishIteration_halted (isHalted_takeError e s)⟩
    · obtain rfl := Host.Outcome.next.inj (hv.symm.trans hu)
      simp [isHalted_finishIteration, hc.isHalted hrun] at ht

/-- An iteration of a halted core does nothing. -/
theorem step_of_isHalted (h : s.isHalted = true) : step s = .next s := by
  obtain ⟨r, hr⟩ := (isHalted_iff s).1 h
  simp only [step, activity, hr, onNext_next, finishIteration_halted h]

theorem run_succ {M : Host.Core} {u v : M.State} (h : M.step u = .next v) (k : Nat) : M.run (k + 1) u = M.run k v := by
  rw [Host.Core.run, h]

theorem run_of_isHalted (h : s.isHalted = true) (k : Nat) : Sys2Proof.core.run k s = .next s := by
  induction k with
  | zero => rfl
  | succ k ih => exact (run_succ (M := core) (step_of_isHalted h) k).trans ih

/-! ### The timers in the key wait (R83, R99) -/

theorem keyWaitPoll_elapsed (x : RegId) (s : State) : (keyWaitPoll x s).inputs.elapsed = s.inputs.elapsed := by
  cases h : keyEventAnswer s with
  | none => rw [keyWaitPoll_none h]; rfl
  | some k => rw [keyWaitPoll_some h]; rfl

/-- The poll leaves the timers. -/
theorem keyWaitPoll_timers (x : RegId) (s : State) : Part.timers.Same s (keyWaitPoll x s) := by
  cases h : keyEventAnswer s with
  | none => rw [keyWaitPoll_none h]; exact ⟨rfl, rfl, rfl⟩
  | some k => rw [keyWaitPoll_some h]; exact ⟨rfl, rfl, rfl⟩

/-- What an advance makes of the timers depends on the timers alone. -/
theorem timerAdvance_timers (e : Nat) (h : Part.timers.Same s t) :
    Part.timers.Same (timerAdvance e s) (timerAdvance e t) := by
  obtain ⟨hdt, hst, hphase⟩ := h
  simp only [Part.Same, timerAdvance_dt, timerAdvance_st, timerAdvance_phase, ticksOf, hdt, hst, hphase, and_self]

theorem elapsedAnswer_supplied {e : Nat} {rest : List Nat} (h : s.inputs.elapsed = e :: rest) : elapsedAnswer s = e := by
  rw [elapsedAnswer, h, List.headD_cons]

/-! ### A program at rest (R117, D34) -/

theorem State.AtRest.isHalted (h : s.AtRest) : s.isHalted = false := by
  obtain ⟨hrun, -⟩ := h
  simp [State.isHalted, hrun]

/-- The jump at the pc goes to the pc, so the iteration is its end alone. -/
theorem step_of_atRest (h : s.AtRest) : step s = .next (finishIteration s) := by
  obtain ⟨hrun, nnn, hi, hpc⟩ := h
  have hjump : jumpTo nnn s = s := by rw [jumpTo, hpc]; rfl
  exact step_of_exec hrun hi (congrArg Host.Outcome.next hjump)

theorem State.AtRest.finishIteration (h : s.AtRest) : (finishIteration s).AtRest := by
  obtain ⟨hrun, nnn, hi, hpc⟩ := h
  exact ⟨(finishIteration_status s).trans hrun, nnn, hi.finishIteration, hpc.trans (finishIteration_pc s).symm⟩

/-- The end of an iteration changes the timers, and an elapsed time is used. -/
theorem sameBut_finishIteration (h : s.isHalted = false) : SameBut [.timers, .ports] s (finishIteration s) := by
  rw [finishIteration_live h]
  exact sameBut_of rfl (.inr rfl) (.inr rfl) (.inr ⟨rfl, rfl⟩) (.inl (by simp)) (.inr rfl) (.inr fun _ => rfl)
    (.inl (by simp))

theorem finishIteration_requests (s : State) : (finishIteration s).requests = s.requests := by
  cases h : s.isHalted
  · rw [finishIteration_live h]; rfl
  · rw [finishIteration_halted h]

theorem finishIteration_inputs (h : s.isHalted = false) :
    (finishIteration s).inputs = { s.inputs with elapsed := s.inputs.elapsed.tail } := by
  rw [finishIteration_live h]; rfl

end Sys2Proof.Machine
end

section
/-! SUPPORT. The statements about the iteration and the timers, settled from the laws above. -/

open Sys2Proof Sys2Proof.Machine

/-- Settles O9: each of the five cases of an iteration names the next state. -/
theorem everyStepAnswersNext : Obligations.EveryStepAnswersNext := by
  intro s
  obtain ⟨_, _, h⟩ | ⟨_, _, h⟩ | ⟨_, _, h⟩ | ⟨_, _, _, _, h⟩ | ⟨_, _, _, _, _, h⟩ := step_cases s
  all_goals exact ⟨_, h⟩

/-- Settles O10: the iteration took an error in the state it began in, which sets the status alone. -/
theorem errorsArePrecise : Obligations.ErrorsArePrecise := by
  intro s t r hs hstep ht
  obtain ⟨hrun, e, rfl⟩ := step_halts hstep hs (isHalted_of_status ht)
  obtain rfl : ⟨e, s.pc⟩ = r := Status.halted.inj ht
  exact ⟨hrun, rfl, rfl⟩

/-- Settles O11, by the iterations of a halted core. -/
theorem haltedChangesNothing : Obligations.HaltedChangesNothing :=
  fun n _ _ h => run_of_isHalted (isHalted_of_status h) n

/-- Settles O16, by induction on the number of iterations: each is the end of an iteration alone, and the program is at rest
after it. -/
theorem selfJumpIsAtRest : Obligations.SelfJumpIsAtRest := by
  intro n
  induction n with
  | zero => exact fun s h => ⟨s, rfl, h, rfl, SameBut.refl _ s, rfl, rfl⟩
  | succ n ih =>
    intro s h
    obtain ⟨t, hrun, hrest, hpc, hframe, hreq, hin⟩ := ih _ h.finishIteration
    refine ⟨t, (run_succ (M := core) (step_of_atRest h) n).trans hrun, hrest, hpc.trans (finishIteration_pc s),
      (sameBut_finishIteration h.isHalted).trans hframe, hreq.trans (finishIteration_requests s), ?_⟩
    rw [hin, finishIteration_inputs h.isHalted, ← List.drop_one, List.drop_drop, Nat.add_comm]

/-- Settles O17: the counters lose the ticks, the rest of the division is the phase. -/
theorem timerAdvanceIsExact : Obligations.TimerAdvanceIsExact :=
  fun e s => ⟨countDown_toNat .., countDown_toNat .., Nat.div_add_mod' .., timerAdvance_phase_lt e s, rfl,
    sameBut_timerAdvance e s⟩

/-- Settles O18: ticks add up, and so does what is left of a period. -/
theorem timerAdvancesAdd : Obligations.TimerAdvancesAdd := timerAdvance_timerAdvance

/-- Settles O19: the advances are one advance of a second, which is 60 whole periods. -/
theorem thousandMillisecondsAreSixtyTicks : Obligations.ThousandMillisecondsAreSixtyTicks := by
  intro s h t
  have ht : t = timerAdvance (1000 * 1000000) s := timerAdvance_iterate h 1000000 1000
  have hticks : ticksOf (1000 * 1000000) s = 60 := by unfold ticksOf; omega
  rw [ht, timerAdvance_dt, timerAdvance_st, timerAdvance_phase, hticks, countDown_toNat,
    countDown_toNat]
  exact ⟨rfl, rfl, by omega⟩

/-- Settles O20: an iteration that ends Halted took an error or began Halted, and the poll of the key wait leaves the
timers to the advance after it. -/
theorem timersStopOnlyOnHalt : Obligations.TimersStopOnlyOnHalt := by
  refine ⟨fun s t hstep ht => ?_, fun s x hs => ?_⟩
  · have htimers : Part.timers.Same s t := by
      cases hs : s.isHalted with
      | true =>
        obtain rfl := Host.Outcome.next.inj ((step_of_isHalted hs).symm.trans hstep)
        exact ⟨rfl, rfl, rfl⟩
      | false =>
        obtain ⟨-, e, rfl⟩ := step_halts hstep hs ht
        exact ⟨rfl, rfl, rfl⟩
    obtain ⟨hdt, hst, hphase⟩ := htimers
    exact ⟨hdt, hst, hphase, run_of_isHalted ht⟩
  · refine ⟨_, _, step_of_awaitingKey hs, fun e₀ rest h => elapsedAnswer_supplied ((keyWaitPoll_elapsed x s).trans h), ?_⟩
    exact timerAdvance_timers _ (keyWaitPoll_timers x s)

end

section
/-! SUPPORT. What the statements about reset and the program image rest on: the reset content outside the glyphs, and the
two outcomes of the loader. -/

namespace Sys2Proof.Machine

variable {s : State}

/-! ### Reset (R108, R109) -/

theorem readReg_hostReset (r : RegId) (s : State) : readReg r (hostReset s) = 0 :=
  Vector.getElem_replicate r.isLt

/-- Memory after reset is the reset content. -/
theorem readByte_hostReset (a : Nat) (s : State) : readByte a (hostReset s) = resetByte s.cfg a := rfl

/-- The reset content is 0 outside the glyph table. -/
theorem resetByte_outside (c : Config) {a : Nat} (h : a < c.fontBase.toNat ∨ c.fontBase.toNat + 80 ≤ a) :
    resetByte c a = 0 :=
  dif_neg (by omega)

/-! ### Loading a program image (R110) -/

theorem hostLoad_fits {bs : List Byte} (h : bs.length ≤ 3584) :
    hostLoad bs s = .next { s with mem := Memory.writeAll s.cfg s.mem 0x200 bs } :=
  if_neg (Nat.not_lt.mpr h)

theorem hostLoad_too_long {bs : List Byte} (h : bs.length > 3584) : hostLoad bs s = .refused .imageTooLong :=
  if_pos h

end Sys2Proof.Machine
end

section
/-! SUPPORT. The statements about reset and the program image, settled from the laws above. -/

open Sys2Proof Sys2Proof.Machine

/-- Settles O54: registers and stack entries are replicated zeros, and memory lists nothing. -/
theorem resetSetsEveryPieceOfState : Obligations.ResetSetsEveryPieceOfState := by
  refine fun s => ⟨fun r => readReg_hostReset r s, rfl, rfl, rfl, List.length_replicate,
    fun _ ha => List.eq_of_mem_replicate ha, rfl, rfl, rfl, rfl, rfl, rfl, fun j => ?_, fun a => resetByte_outside s.cfg⟩
  have hglyph := resetByte_glyph s.cfg j.isLt
  rw [Vector.getElem?_eq_getElem j.isLt] at hglyph
  exact Option.some.inj hglyph

/-- Settles O55, by whether the image fits; one that does is written as any bytes in memory are. -/
theorem loadPlacesTheImage : Obligations.LoadPlacesTheImage := by
  refine fun bytes s hw => ⟨fun h => ?_, hostLoad_too_long⟩
  have hb : 0x200 + bytes.length ≤ 0x1000 := by omega
  exact ⟨_, hostLoad_fits h, rfl, sameBut_mem _ s, Memory.wf_writeAll hw hb, fun j b => readByte_writeAll_getElem? hw hb,
    fun a => readByte_writeAll_outside hw hb⟩

end
